-- ==== Sys2Proof/Word.lean ====
section
/-! DEFINITION. The unsigned widths of the spec (00_scope.md R6): u8, u16, u32, and the 20-bit
transaction word (30_encoding.md R50). Nothing in the block is signed. -/

namespace Sys2Proof

/-- u8: one byte of a message or of a stored word. -/
abbrev Byte := BitVec 8

/-- u16: the width of every mailbox register and of the checksum (R5 `REG_WIDTH`, `CRC_WIDTH`). -/
abbrev Half := BitVec 16

/-- u32: a target address or a data word (R5 `ADDR_WIDTH`, `WORD_BYTES` = 4). -/
abbrev Word := BitVec 32

/-- The 20-bit transaction word `T` = W, idx, data (R50). -/
abbrev TxWord := BitVec 20

end Sys2Proof
end

