-- ==== Sys2Proof/Config.lean ====
section
/-! DEFINITION. What an implementation fixes (00_scope.md R5) and the free values of the spec.
The parameters are plain data held in the machine's state, so that a statement over all states
quantifies over them; the free values are constants without a body. -/

namespace Sys2Proof

/-- A run of target byte addresses, from `base`, `size` bytes long: the plain data `TMEM_VALID` is
written with (R39). -/
structure Region where
  base : Nat
  size : Nat
  deriving DecidableEq, Repr

/-- How the four bytes of a stored word appear to byte accesses of the target processor: the OPEN
parameter `TARGET_BYTE_ORDER` (R5, R35, C3). For each of the four byte addresses of a word, which byte of
the word stands there, counted from bits 7:0; every assignment is admitted, little, big and mixed
endian among them. DESIGN CHOICE: a byte address shows one of the four bytes of its own word, the same
one in every word (log 8). No operation of the model reads one. -/
structure ByteOrder where
  at0 : Fin 4
  at1 : Fin 4
  at2 : Fin 4
  at3 : Fin 4
  deriving DecidableEq, Repr

/-- The byte of the word that stands at its `i`-th byte address. -/
def ByteOrder.byteAt (o : ByteOrder) (i : Nat) : Fin 4 :=
  if i = 0 then o.at0 else if i = 1 then o.at1 else if i = 2 then o.at2 else o.at3

/-- Bits 7:0 at the lowest address. -/
def ByteOrder.littleEndian : ByteOrder := ⟨0, 1, 2, 3⟩

/-- Bits 31:24 at the lowest address. -/
def ByteOrder.bigEndian : ByteOrder := ⟨3, 2, 1, 0⟩

/-- The named parameters of R5. They are fixed for a run and not changed by reset (R161). -/
structure Config where
  /-- `CRC_INIT` (D1): what the CRC-reset command loads, and the seed of the host's running CRC. -/
  crcInit : Half
  /-- `BLOB_SEED` (D2): the seed of the blob trailer check. -/
  blobSeed : Half
  /-- `IDX_CTRL` (D3). -/
  idxCtrl : BitVec 3
  /-- `IDX_CRC` (D3). -/
  idxCrc : BitVec 3
  /-- `IDX_ADDR_MSW` (D3). -/
  idxAddrMsw : BitVec 3
  /-- `IDX_ADDR_LSW` (D3). -/
  idxAddrLsw : BitVec 3
  /-- `IDX_DATA_MSW` (D3). -/
  idxDataMsw : BitVec 3
  /-- `IDX_DATA_LSW` (D3). -/
  idxDataLsw : BitVec 3
  /-- `BIT_EXECUTE` (D4). -/
  bitExecute : Fin 16
  /-- `BIT_WRITE` (D4). -/
  bitWrite : Fin 16
  /-- `BIT_CRC_RESET` (D4). -/
  bitCrcReset : Fin 16
  /-- `BIT_BUSY` (D4). -/
  bitBusy : Fin 16
  /-- `TMEM_VALID` (D10): an address accepts a mailbox write when some region holds it. -/
  validRegions : List Region
  /-- `N_TARGETS` (D27). -/
  nTargets : Nat
  deriving DecidableEq, Repr

/-- The defaults of R5: the spec's own choices D1 to D4, D10, D27 (PRESUMED from general knowledge
for the indices and bit positions, as R51 and R52 say). Log 6. -/
def Config.default : Config where
  crcInit := 0x0000#16
  blobSeed := 0x0000#16
  idxCtrl := 0#3
  idxCrc := 1#3
  idxAddrMsw := 2#3
  idxAddrLsw := 3#3
  idxDataMsw := 4#3
  idxDataLsw := 5#3
  bitExecute := 15
  bitWrite := 14
  bitCrcReset := 12
  bitBusy := 8
  validRegions := [⟨0, 2 ^ 32⟩]
  nTargets := 1

/-- `MBOX_BASE` (R5, R30): where register index 0 sits on the host's bus. OPEN: no value is chosen
and no rule depends on it, so nothing in the model reads it. Log 10. -/
opaque Config.mboxBase : Nat

/-- The free value `draw u16` (R7): the n-th draw of a run, under no law. Log 3. -/
opaque Config.freeRead : Nat → Half

/-- How many steps the engine lets pass before it commits a word, when the run has not fixed it:
any finite number (R41, D21, I21). Log 4. -/
opaque Config.commitDelay : Nat → Nat

/-- Which of several host agents that have something to issue moves next, when the run has not fixed it:
any order (R8, R152). Log 12. -/
opaque Config.hostTurn : Nat → Nat

end Sys2Proof
end

