-- ==== Sys2Proof/Syntax.lean ====
section
/-! DEFINITION. The instructions of the block: the twelve host transactions of 30_encoding.md R56,
one constructor per row of spec/opcode_table.json. -/

namespace Sys2Proof

/-- A host transaction with a meaning (R4, R56): one 16-bit read or write of one mailbox register. -/
inductive Instr where
  /-- `RD.CTRL` (R98). -/
  | rdCtrl
  /-- `RD.CRC` (R99). -/
  | rdCrc
  /-- `RD.ADDRH` (R100). -/
  | rdAddrh
  /-- `RD.ADDRL` (R101). -/
  | rdAddrl
  /-- `RD.DATAH` (R102). -/
  | rdDatah
  /-- `RD.DATAL` (R103). -/
  | rdDatal
  /-- `MB.CRCRST`, the CRC-reset command (R96). -/
  | mbCrcrst
  /-- `MB.XWR`, the execute+write command (R97). -/
  | mbXwr
  /-- `WR.ADDRH v` (R91). -/
  | wrAddrh (v : Half)
  /-- `WR.ADDRL v`, bits 1:0 of `v` zero (R92). -/
  | wrAddrl (v : Half)
  /-- `WR.DATAH v` (R93). -/
  | wrDatah (v : Half)
  /-- `WR.DATAL v` (R94). -/
  | wrDatal (v : Half)
  deriving DecidableEq, Repr

end Sys2Proof
end

