-- ==== Sys2Proof/WellFormed.lean ====
section
/-! DEFINITION. Which instructions and which parameters are well formed. -/

namespace Sys2Proof

/-- Bits 1:0 are zero: the form the lower address half must have (20_memory.md R36). -/
def Half.aligned (v : Half) : Bool := v.extractLsb' 0 2 == 0#2

/-- An instruction the encoding admits: only `WR.ADDRL` restricts its operand (R56). -/
def Instr.wf : Instr → Bool
  | .rdCtrl => true
  | .rdCrc => true
  | .rdAddrh => true
  | .rdAddrl => true
  | .rdDatah => true
  | .rdDatal => true
  | .mbCrcrst => true
  | .mbXwr => true
  | .wrAddrh _ => true
  | .wrAddrl v => v.aligned
  | .wrDatah _ => true
  | .wrDatal _ => true

/-- The six register indices, in the order of R51's table. -/
def Config.indices (c : Config) : List (BitVec 3) :=
  [c.idxCtrl, c.idxCrc, c.idxAddrMsw, c.idxAddrLsw, c.idxDataMsw, c.idxDataLsw]

/-- The four bit positions of the control register (R17). -/
def Config.bits (c : Config) : List (Fin 16) :=
  [c.bitExecute, c.bitWrite, c.bitCrcReset, c.bitBusy]

/-- Parameters under which the register map and the command words are unambiguous: no register is
reachable by more than one index (R28), the control fields are four different bits (R17), and there
is a target (R24). -/
def Config.wf (c : Config) : Bool :=
  decide c.indices.Nodup && decide c.bits.Nodup && decide (1 ≤ c.nTargets)

end Sys2Proof
end

