-- ==== Sys2Proof/Decode.lean ====
section
/-! DEFINITION. The decoder of 30_encoding.md, total on every 20-bit word and rejecting by name
(R56 to R59, R62), and the encoder written from the same tables (R50 to R52). Both take the
parameters `IDX_*` and `BIT_*`: with other values the words change accordingly and nothing else does
(the last paragraph of 92_eei_decisions.md). -/

namespace Sys2Proof

/-- The refusals of 60_exceptions.md R142: why a transaction word has no meaning. Each is recorded in
the target's `refused` (R143), so the step itself goes on to a next state; safe, since nothing is
then claimed of the chip. -/
inductive Refuse where
  /-- The index names none of the six registers (R59). Raised by `decode`. -/
  | reservedRegister (idx : BitVec 3)
  /-- A read whose data field is not zero (R59). Raised by `decode`. -/
  | malformedTransaction
  /-- A write to `CRC` (R59). Raised by `decode`. -/
  | readOnlyRegister
  /-- A command word that is neither of the two defined ones (R57, R58). Raised by `decode`. -/
  | reservedCommand (data : Half)
  /-- A lower address half with bit 1 or 0 set (R36, R59). Raised by `decode`, by `LOADSEG` with such
  a base before its first transaction (R123), and by `WR.ADDRL` itself for an operand no word
  decodes to. -/
  | misalignedAddress (data : Half)
  deriving DecidableEq, Repr

/-- The six mailbox registers (10_state.md R11 to R16). -/
inductive Reg where
  | ctrl
  | crc
  | addrMsw
  | addrLsw
  | dataMsw
  | dataLsw
  deriving DecidableEq, Repr

/-- What the decoder answers. -/
inductive Decoded where
  | instr (i : Instr)
  | refuse (r : Refuse)
  deriving DecidableEq, Repr

/-- The index of a register (R51). -/
def Config.idxOf (c : Config) : Reg → BitVec 3
  | .ctrl => c.idxCtrl
  | .crc => c.idxCrc
  | .addrMsw => c.idxAddrMsw
  | .addrLsw => c.idxAddrLsw
  | .dataMsw => c.idxDataMsw
  | .dataLsw => c.idxDataLsw

/-- The register an index selects; none for the two reserved indices (R51, R59). -/
def Config.regOf (c : Config) (idx : BitVec 3) : Option Reg :=
  if idx = c.idxCtrl then some .ctrl
  else if idx = c.idxCrc then some .crc
  else if idx = c.idxAddrMsw then some .addrMsw
  else if idx = c.idxAddrLsw then some .addrLsw
  else if idx = c.idxDataMsw then some .dataMsw
  else if idx = c.idxDataLsw then some .dataLsw
  else none

/-- A half with the one bit `i` set. -/
def Half.bit (i : Fin 16) : Half := 1#16 <<< i.val

/-- The command word of `MB.CRCRST`: `CRC_RESET` alone (R52). -/
def Config.crcResetCommand (c : Config) : Half := Half.bit c.bitCrcReset

/-- The command word of `MB.XWR`: `EXECUTE` and `WRITE` (R52). -/
def Config.executeWriteCommand (c : Config) : Half := Half.bit c.bitExecute ||| Half.bit c.bitWrite

/-- Field `W`, bit 19: 1 = write (R50). -/
def TxWord.isWrite (t : TxWord) : Bool := t.getLsbD 19

/-- Field `idx`, bits 18:16 (R50). -/
def TxWord.idx (t : TxWord) : BitVec 3 := t.extractLsb' 16 3

/-- Field `data`, bits 15:0 (R50). -/
def TxWord.data (t : TxWord) : Half := t.extractLsb' 0 16

/-- A read of a register, its data field zero (R56). -/
def decodeRead : Reg → Instr
  | .ctrl => .rdCtrl
  | .crc => .rdCrc
  | .addrMsw => .rdAddrh
  | .addrLsw => .rdAddrl
  | .dataMsw => .rdDatah
  | .dataLsw => .rdDatal

/-- A write to `CTRL`: its data field is a command word (R52, R57, R58). -/
def decodeCommand (c : Config) (data : Half) : Decoded :=
  if data = c.crcResetCommand then .instr .mbCrcrst
  else if data = c.executeWriteCommand then .instr .mbXwr
  else .refuse (.reservedCommand data)

/-- A write of a register (R56, R57, R59). -/
def decodeWrite (c : Config) (data : Half) : Reg → Decoded
  | .ctrl => decodeCommand c data
  | .crc => .refuse .readOnlyRegister
  | .addrMsw => .instr (.wrAddrh data)
  | .addrLsw => if data.aligned then .instr (.wrAddrl data) else .refuse (.misalignedAddress data)
  | .dataMsw => .instr (.wrDatah data)
  | .dataLsw => .instr (.wrDatal data)

/-- The decoder (R62): total, and `ReservedRegister` comes before `MalformedTransaction`. It reads no
state but the parameters. -/
def decode (c : Config) (t : TxWord) : Decoded :=
  match c.regOf t.idx with
  | none => .refuse (.reservedRegister t.idx)
  | some r =>
    if t.isWrite then decodeWrite c t.data r
    else if t.data = 0#16 then .instr (decodeRead r)
    else .refuse .malformedTransaction

/-- A transaction word from its three fields (R50). -/
def TxWord.make (w : BitVec 1) (idx : BitVec 3) (data : Half) : TxWord := w ++ idx ++ data

/-- The word of a read of `r`. -/
def readWordOf (c : Config) (r : Reg) : TxWord := TxWord.make 0#1 (c.idxOf r) 0#16

/-- The word of a write of `v` to `r`. -/
def writeWordOf (c : Config) (r : Reg) (v : Half) : TxWord := TxWord.make 1#1 (c.idxOf r) v

/-- The encoder (R50 to R52, R56). -/
def encode (c : Config) : Instr → TxWord
  | .rdCtrl => readWordOf c .ctrl
  | .rdCrc => readWordOf c .crc
  | .rdAddrh => readWordOf c .addrMsw
  | .rdAddrl => readWordOf c .addrLsw
  | .rdDatah => readWordOf c .dataMsw
  | .rdDatal => readWordOf c .dataLsw
  | .mbCrcrst => writeWordOf c .ctrl c.crcResetCommand
  | .mbXwr => writeWordOf c .ctrl c.executeWriteCommand
  | .wrAddrh v => writeWordOf c .addrMsw v
  | .wrAddrl v => writeWordOf c .addrLsw v
  | .wrDatah v => writeWordOf c .dataMsw v
  | .wrDatal v => writeWordOf c .dataLsw v

/-- The `match` column of R56's table, with the operand bits zero. -/
def rowMatch : Instr → TxWord
  | .rdCtrl => 0x00000#20
  | .rdCrc => 0x10000#20
  | .rdAddrh => 0x20000#20
  | .rdAddrl => 0x30000#20
  | .rdDatah => 0x40000#20
  | .rdDatal => 0x50000#20
  | .mbCrcrst => 0x81000#20
  | .mbXwr => 0x8C000#20
  | .wrAddrh _ => 0xA0000#20
  | .wrAddrl _ => 0xB0000#20
  | .wrDatah _ => 0xC0000#20
  | .wrDatal _ => 0xD0000#20

/-- The `mask` column of R56's table. -/
def rowMask : Instr → TxWord
  | .rdCtrl => 0xFFFFF#20
  | .rdCrc => 0xFFFFF#20
  | .rdAddrh => 0xFFFFF#20
  | .rdAddrl => 0xFFFFF#20
  | .rdDatah => 0xFFFFF#20
  | .rdDatal => 0xFFFFF#20
  | .mbCrcrst => 0xFFFFF#20
  | .mbXwr => 0xFFFFF#20
  | .wrAddrh _ => 0xF0000#20
  | .wrAddrl _ => 0xF0003#20
  | .wrDatah _ => 0xF0000#20
  | .wrDatal _ => 0xF0000#20

/-- The instruction the decoder reads from the bits `w` of an opcode-table row, under the default
parameters the table is written with. Bits above `nbits` are zero, and a transaction word has no bit
above 19 (log 18). -/
def decodeTableWord (nbits w : Nat) : Option Instr :=
  match decode Config.default (BitVec.ofNat 20 (w % 2 ^ nbits)) with
  | .instr i => some i
  | .refuse _ => none

end Sys2Proof
end

