-- ==== Sys2Proof/Machine/State.lean ====
section
/-! DEFINITION. The machine's state as plain data: the record of 10_state.md R10 for every target
(R24), the parameters of R5, and the model's own fields for what R26 calls parameters of the step
relation (the hosts' scripts and their positions in them, the values returned, the draws, the schedule). -/

namespace Sys2Proof.Machine

/-- The mnemonics of R56, the value `Fault.BusyAccess` records (R141). -/
inductive Mnemonic where
  | rdCtrl
  | rdCrc
  | rdAddrh
  | rdAddrl
  | rdDatah
  | rdDatal
  | mbCrcrst
  | mbXwr
  | wrAddrh
  | wrAddrl
  | wrDatah
  | wrDatal
  deriving DecidableEq, Repr

/-- The tag of an unwritten operand pair (R141). -/
inductive OperandPair where
  | addr
  | data
  deriving DecidableEq, Repr

/-- The spec's faults (60_exceptions.md R141). Each is recorded in the target's `fault` and stops its
run (R23, R143): the step answers a next state holding the mark. Safe: nothing is then claimed of
the chip. -/
inductive FaultMark where
  /-- A transaction other than `RD.CTRL` while a word is in flight. Raised by the prologue R90. -/
  | busyAccess (m : Mnemonic)
  /-- A half of the address or of the data is unwritten. Raised by `MB.XWR` (R97). -/
  | unwrittenOperand (p : OperandPair)
  /-- `TMEM_VALID` is false for the pointer. Raised by `MB.XWR` (R97). -/
  | targetAddressInvalid (a : Word)
  /-- The register read is unwritten. Raised by `RD.CRC` (R99), with `crc`. -/
  | unwrittenRead (r : Reg)
  deriving DecidableEq, Repr

/-- Why the machine itself stops, with no next state. Both are raised by the engine's commit alone, in
states no run reaches (R27): the spec gives the commit no meaning there. Safe. -/
inductive Fault where
  /-- The engine is to commit a word and a half of the address or of the data is unwritten. -/
  | commitOperandMissing
  /-- The engine is to commit a word to an address outside `TMemWrite`'s precondition (R32). -/
  | commitWriteForbidden (a : Word)
  deriving DecidableEq, Repr

/-- Why an instruction has no meaning. -/
inductive Refusal where
  /-- The instruction's arm of `exec` holds no meaning yet. Raised by no arm of this model; safe. -/
  | notModelled (mnemonic : String)
  /-- A transaction is addressed to a register set the machine does not have (N_TARGETS, R24): a place
  on the host's bus, which is outside the spec (R3). Raised by every transaction; safe. -/
  | noSuchTarget (k : Nat)
  deriving DecidableEq, Repr

/-- The document's transfer error (R140). -/
inductive TransferError where
  | crcMismatch (computed readback : Half)
  deriving DecidableEq, Repr

/-- The document's parse errors that are in scope (R140). -/
inductive ParseError where
  | crcMismatch (computed expected : Half)
  | outOfBounds
  deriving DecidableEq, Repr

/-- The result of a host procedure: `Ok` or `Err(E)` (R7). -/
inductive HostResult (ε : Type) where
  | ok
  | err (e : ε)
  deriving DecidableEq, Repr

/-- One operation of a host's script on target `k` (42_host_protocol.md). `more` counts the operations
after it that belong to the same procedure: those of the second segment of a `LOADFW`, none for a lone
`LOADSEG`. -/
inductive HostOp where
  /-- One transaction word. -/
  | tx (k : Nat) (t : TxWord)
  /-- `POLL`: `RD.CTRL` again and again until the value read has the busy bit clear (R120). -/
  | poll (k : Nat)
  /-- `RD.CRC` and the comparison of its value with the host's local running CRC (R124). -/
  | check (k : Nat) (localCrc : Half) (more : Nat)
  /-- `LOADSEG` with a misaligned base: a refusal before any transaction (R123). -/
  | refuse (k : Nat) (r : Refuse) (more : Nat)
  deriving DecidableEq, Repr

/-- One host agent (R152): what it still issues, and what its last procedure returned to the caller, none
when that was refused or none has ended (R140: results are no state of the block; log 21). -/
structure HostAgent where
  script : List HostOp
  result : Option (HostResult TransferError)
  deriving DecidableEq, Repr

/-- Target memory as a list of (byte address, byte) cells. -/
abbrev Memory := List Host.Cell

/-- The state of one target's block: the record of R10 and nothing else. An `Option` that is `none` is
the spec's "unwritten" (R6). -/
structure Block where
  /-- `CRC`, the engine's running accumulator (R12, R20). -/
  crc : Option Half
  /-- `ADDR_MSW`, bits 31:16 of the target address pointer (R13). -/
  addrMsw : Option Half
  /-- `ADDR_LSW`, bits 15:0 of the target address pointer (R14). -/
  addrLsw : Option Half
  /-- `DATA_MSW`, bits 31:16 of the word to transfer (R15). -/
  dataMsw : Option Half
  /-- `DATA_LSW`, bits 15:0 of the word to transfer (R16). -/
  dataLsw : Option Half
  /-- `busy`: a word is in flight (R18). -/
  busy : Bool
  /-- `TMem`, target memory as the mailbox sees it (R22). -/
  tmem : Memory
  /-- The first fault raised (R23). -/
  fault : Option FaultMark
  /-- The first refusal (R23). -/
  refused : Option Refuse
  deriving DecidableEq, Repr

/-- One target: its record, and how many steps its engine still lets pass before it commits the word
in flight (the model's own field, log 4). -/
structure Target where
  block : Block
  wait : Nat
  deriving DecidableEq, Repr

/-- The whole machine. -/
structure State where
  /-- The parameters (R5): never changed by a step. -/
  cfg : Config
  /-- One record per target (R24). -/
  targets : List Target
  /-- The target whose register set the present transaction addresses (R152). -/
  sel : Nat
  /-- The host agents (R152). -/
  hosts : List HostAgent
  /-- The value the last transaction returned, if it returned one. -/
  reply : Option Half
  /-- How many free values have been taken from the constants of Config. -/
  draws : Nat
  /-- Values already fixed for the draws to come (R26 "the values returned by `draw`"); beyond them a
  draw is a free value. -/
  reads : List Half
  /-- Waits already fixed for the words to come; beyond them a wait is a free value. -/
  waits : List Nat
  /-- Turns of the host agents already fixed; beyond them a turn is a free value. -/
  turns : List Nat
  deriving DecidableEq, Repr

/-- A block right after reset: `busy` false, everything else unwritten, no mark (R25, R161). -/
def Block.reset : Block where
  crc := none
  addrMsw := none
  addrLsw := none
  dataMsw := none
  dataLsw := none
  busy := false
  tmem := []
  fault := none
  refused := none

/-- The initial state of a run (R160) under given parameters: every target at R25, one host agent with
nothing to issue, no value drawn. -/
def State.resetWith (c : Config) : State where
  cfg := c
  targets := List.replicate c.nTargets ⟨Block.reset, 0⟩
  sel := 0
  hosts := [⟨[], none⟩]
  reply := none
  draws := 0
  reads := []
  waits := []
  turns := []

/-- The machine right after reset, under the default parameters of R5. -/
def State.reset : State := State.resetWith Config.default

end Sys2Proof.Machine
end

