-- ==== Sys2Proof/Machine/Ops.lean ====
section
/-! DEFINITION. The named operations over target memory, the registers, the targets and the outcomes
of a transaction; every instruction is one line over these. -/

namespace Sys2Proof.Machine

/-! ### Target memory (10_state.md R22, 20_memory.md R31, R32) -/

/-- The byte at an address; none where nothing has been written (R22). -/
def Memory.read : Memory → Nat → Option Byte
  | [], _ => none
  | c :: rest, a => if c.1 = a then some c.2 else Memory.read rest a

/-- Write one byte, keeping the addresses strictly rising. -/
def Memory.write : Memory → Nat → Byte → Memory
  | [], a, v => [(a, v)]
  | c :: rest, a, v =>
    if a < c.1 then (a, v) :: c :: rest
    else if a = c.1 then (a, v) :: rest
    else c :: Memory.write rest a v

/-- The canonical form: addresses strictly rising, inside the 32-bit space. An unlisted address has no
value, so no entry can equal what an unlisted address reads as. -/
abbrev Memory.wf (m : Memory) : Prop :=
  m.Pairwise (fun c d => c.1 < d.1) ∧ ∀ c ∈ m, c.1 < 2 ^ 32

/-- `TMemWrite(a, w)` (R32): the four cells at `a` take the word's bytes in the order in which the
engine transfers them, most significant first (R33). Only `Memory.readWord` puts them together
again, so this order says nothing of `TARGET_BYTE_ORDER`. Log 8. -/
def Memory.writeWord (m : Memory) (a : Word) (w : Word) : Memory :=
  (((m.write a.toNat (w.extractLsb' 24 8)).write (a.toNat + 1) (w.extractLsb' 16 8)).write
    (a.toNat + 2) (w.extractLsb' 8 8)).write (a.toNat + 3) (w.extractLsb' 0 8)

/-- `TMemRead(a)` (R7): the word at `a`, none where it is unwritten (R22). No transaction uses it. -/
def Memory.readWord (m : Memory) (a : Word) : Option Word := do
  let b3 ← m.read a.toNat
  let b2 ← m.read (a.toNat + 1)
  let b1 ← m.read (a.toNat + 2)
  let b0 ← m.read (a.toNat + 3)
  return b3 ++ b2 ++ b1 ++ b0

/-- The byte a byte access of the target processor would see at address `a`, for each value of the
OPEN parameter `TARGET_BYTE_ORDER` (R35): the cells of a word hold its bytes from bits 31:24 down. No rule
and no step depends on it. -/
def Memory.targetByte (o : ByteOrder) (m : Memory) (a : Nat) : Option Byte :=
  m.read (a - a % 4 + (3 - (o.byteAt (a % 4)).val))

/-- A region holds an address. -/
def regionHolds (r : Region) (a : Nat) : Bool := decide (r.base ≤ a) && decide (a < r.base + r.size)

/-- `TMEM_VALID(a)` (R39): the word-aligned address `a` accepts a mailbox write. -/
def tmemValid (c : Config) (a : Word) : Bool := c.validRegions.any (fun r => regionHolds r a.toNat)

/-- The low two bits of a target address are zero (R36). -/
def wordAligned (a : Word) : Bool := a.extractLsb' 0 2 == 0#2

/-- The precondition of `TMemWrite` (R32). -/
def writable (c : Config) (a : Word) : Bool := wordAligned a && tmemValid c a

/-! ### Registers (00_scope.md R7 `x[i]`, 10_state.md R11 to R16) -/

/-- The stored value of a register; `CTRL` stores none (R11, R95). -/
def Block.get (b : Block) : Reg → Option Half
  | .ctrl => none
  | .crc => b.crc
  | .addrMsw => b.addrMsw
  | .addrLsw => b.addrLsw
  | .dataMsw => b.dataMsw
  | .dataLsw => b.dataLsw

/-- `x[i] <- v`: write the stored value of a register; `CTRL` stores nothing (R95). -/
def Block.set (b : Block) (r : Reg) (v : Option Half) : Block :=
  match r with
  | .ctrl => b
  | .crc => { b with crc := v }
  | .addrMsw => { b with addrMsw := v }
  | .addrLsw => { b with addrLsw := v }
  | .dataMsw => { b with dataMsw := v }
  | .dataLsw => { b with dataLsw := v }

/-- A fault or a refusal is recorded: the run of this target is stopped (R23). -/
def Block.stopped (b : Block) : Bool := b.fault.isSome || b.refused.isSome

/-- The engine's commit is enabled (R104). -/
def Block.commitEnabled (b : Block) : Bool := b.busy && !b.stopped

/-! ### Targets (10_state.md R24) -/

/-- The target the present transaction addresses, if the machine has it. -/
def State.target? (s : State) : Option Target := s.targets[s.sel]?

/-- Replace the addressed target. -/
def State.setTarget (s : State) (t : Target) : State := { s with targets := s.targets.set s.sel t }

/-- Address target `k` (R152); no value has been returned yet. -/
def State.select (s : State) (k : Nat) : State := { s with sel := k, reply := none }

/-- One step passes for a target: a pending commit comes nearer (log 4). -/
def Target.tick (t : Target) : Target := { t with wait := t.wait - 1 }

/-- One step passes for every target. -/
def State.tick (s : State) : State := { s with targets := s.targets.map Target.tick }

/-- The optional reset operation of R160: one target's whole record becomes the initial one. No
transaction and no rule issues it. -/
def State.resetTarget (s : State) (k : Nat) : State :=
  { s with targets := s.targets.set k ⟨Block.reset, 0⟩ }

/-! ### How a transaction ends -/

/-- The transaction returned nothing. -/
def State.noReply (s : State) : State := { s with reply := none }

/-- The transaction is done: the addressed target `t` has the record `b`, and `r` is returned. -/
def State.complete (s : State) (t : Target) (b : Block) (r : Option Half) : State :=
  { s.setTarget { t with block := b } with reply := r }

/-- `raise Fault.X(info)` (R7, R143): the fault is recorded in the addressed target `t`, nothing else
of its record changes, nothing is returned. -/
def State.takeFault (s : State) (t : Target) (f : FaultMark) : State :=
  s.complete t { t.block with fault := some f } none

/-- `refuse Refuse.X(info)` (R7, R143): likewise for a refusal. -/
def State.takeRefusal (s : State) (t : Target) (r : Refuse) : State :=
  s.complete t { t.block with refused := some r } none

/-- `draw u16` (R7): the value the run has fixed, or a free one (log 3). -/
def State.nextDraw (s : State) : Half :=
  match s.reads with
  | r :: _ => r
  | [] => Config.freeRead s.draws

/-- A value has been drawn; the next draw is another. -/
def State.takeDraw (s : State) : State :=
  match s.reads with
  | _ :: rest => { s with reads := rest }
  | [] => { s with draws := s.draws + 1 }

/-- The transaction returns a draw, seen through `f`. -/
def State.drawReply (s : State) (f : Half → Half) : State :=
  { s.takeDraw with reply := some (f s.nextDraw) }

/-- The mnemonic of an instruction (R56). -/
def mnemonicOf : Instr → Mnemonic
  | .rdCtrl => .rdCtrl
  | .rdCrc => .rdCrc
  | .rdAddrh => .rdAddrh
  | .rdAddrl => .rdAddrl
  | .rdDatah => .rdDatah
  | .rdDatal => .rdDatal
  | .mbCrcrst => .mbCrcrst
  | .mbXwr => .mbXwr
  | .wrAddrh _ => .wrAddrh
  | .wrAddrl _ => .wrAddrl
  | .wrDatah _ => .wrDatah
  | .wrDatal _ => .wrDatal

/-- The prologue of every transaction but its decoding (41_mailbox.md R90 steps 1, 3 and 4, priority
R146): a stopped run keeps its state; any transaction but `RD.CTRL` faults while a word is in
flight; otherwise the instruction's own rule. -/
def prologue (s : State) (m : Mnemonic) (rule : Target → Host.Outcome State Fault Refusal) :
    Host.Outcome State Fault Refusal :=
  match s.target? with
  | none => .refused (.noSuchTarget s.sel)
  | some t =>
    if t.block.stopped then .next s.noReply
    else if t.block.busy && decide (m ≠ .rdCtrl) then .next (s.takeFault t (.busyAccess m))
    else rule t

/-- Change the next state of an outcome; a stop stays as it is. -/
def mapNext (f : State → State) : Host.Outcome State Fault Refusal → Host.Outcome State Fault Refusal
  | .next s => .next (f s)
  | .fault r => .fault r
  | .refused r => .refused r

end Sys2Proof.Machine
end

