-- ==== Sys2Proof/Machine/Flags.lean ====
section
/-! DEFINITION. The one flag `busy` (10_state.md R18), the value a read of the control register shows
(R17, R53), and when the engine acts (R41, D21). -/

namespace Sys2Proof.Machine

/-- `v` with bit `i` replaced by `x`. -/
def withBit (v : Half) (i : Fin 16) (x : Bool) : Half :=
  if x then v ||| Half.bit i else v &&& ~~~ Half.bit i

/-- What `RD.CTRL` returns from a draw: bit `BIT_BUSY` is the flag, the rest stays free (R98). -/
def controlValue (c : Config) (busy : Bool) (r : Half) : Half := withBit r c.bitBusy busy

/-- The wait of the word about to be accepted: the one the run has fixed, or a free one (log 4). -/
def State.nextWait (s : State) : Nat :=
  match s.waits with
  | d :: _ => d
  | [] => Config.commitDelay s.draws

/-- The wait of a word has been taken. -/
def State.takeWait (s : State) : State :=
  match s.waits with
  | _ :: rest => { s with waits := rest }
  | [] => { s with draws := s.draws + 1 }

/-- `busy <- true` on the addressed target `t`, with the wait its engine takes (R97). -/
def State.acceptWord (s : State) (t : Target) : State :=
  { (s.takeWait.setTarget ⟨{ t.block with busy := true }, s.nextWait⟩) with reply := none }

/-- The engine of a target is due: its commit is enabled and its wait is over. -/
def Target.due (t : Target) : Bool := t.block.commitEnabled && t.wait == 0

/-- The first target whose engine is due (log 5). -/
def State.due (s : State) : Option Nat := s.targets.findIdx? Target.due

end Sys2Proof.Machine
end

