-- ==== Sys2Proof/Machine/Operands.lean ====
section
/-! DEFINITION. How addresses and data words are put together from halves and taken apart
(30_encoding.md R54, R55), and how the address pointer advances (10_state.md R19). -/

namespace Sys2Proof.Machine

/-- Bits 31:16 of a word: the MSW half. -/
def upperHalf (w : Word) : Half := w.extractLsb' 16 16

/-- Bits 15:0 of a word: the LSW half. -/
def lowerHalf (w : Word) : Half := w.extractLsb' 0 16

/-- A word from two halves that may be unwritten. -/
def joinHalves : Option Half → Option Half → Option Word
  | some hi, some lo => some (hi ++ lo)
  | _, _ => none

/-- The address pointer `A` = ADDR_MSW, ADDR_LSW (R19, R54); none while a half is unwritten. -/
def Block.pointer? (b : Block) : Option Word := joinHalves (b.get .addrMsw) (b.get .addrLsw)

/-- The data word `D` = DATA_MSW, DATA_LSW (R55); none while a half is unwritten. -/
def Block.dataWord? (b : Block) : Option Word := joinHalves (b.get .dataMsw) (b.get .dataLsw)

/-- Set both address halves; none makes both unwritten. -/
def Block.setPointer (b : Block) (a : Option Word) : Block :=
  (b.set .addrMsw (a.map upperHalf)).set .addrLsw (a.map lowerHalf)

/-- Set both data halves; none makes both unwritten. -/
def Block.setData (b : Block) (d : Option Word) : Block :=
  (b.set .dataMsw (d.map upperHalf)).set .dataLsw (d.map lowerHalf)

/-- The pointer after a commit at `a` (R19, R104): `a + 4`, and no wrap at the top of the space. -/
def nextPointer (a : Word) : Option Word := if a = 0xFFFFFFFC#32 then none else some (a + 4#32)

end Sys2Proof.Machine
end

