-- ==== Sys2Proof/Machine/Commands.lean ====
section
/-! DEFINITION. The commands of 41_mailbox.md section 3 (R95 to R97): writes to `CTRL`, which stores
nothing. -/

namespace Sys2Proof.Machine

/-- `MB.CRCRST` (R96): `CRC <- CRC_INIT`, nothing else. -/
def execMbCrcrst (s : State) : Host.Outcome State Fault Refusal :=
  prologue s .mbCrcrst fun t => .next (s.complete t (t.block.set .crc (some s.cfg.crcInit)) none)

/-- `MB.XWR` (R97): the address, the data and `TMEM_VALID` are checked in this order, then
`busy <- true`; the word itself moves at the engine's commit. -/
def execMbXwr (s : State) : Host.Outcome State Fault Refusal :=
  prologue s .mbXwr fun t =>
    match t.block.pointer? with
    | none => .next (s.takeFault t (.unwrittenOperand .addr))
    | some a =>
      match t.block.dataWord? with
      | none => .next (s.takeFault t (.unwrittenOperand .data))
      | some _ =>
        if tmemValid s.cfg a then .next (s.acceptWord t)
        else .next (s.takeFault t (.targetAddressInvalid a))

end Sys2Proof.Machine
end

