-- ==== Sys2Proof/Machine/ReadRegisters.lean ====
section
/-! DEFINITION. The register reads of 41_mailbox.md section 4 (R98 to R103). A read changes nothing of
the target's record (20_memory.md R38). -/

namespace Sys2Proof.Machine

/-- A read of a register whose value the spec leaves open: `return draw u16` (R100 to R103). -/
def readOpen (m : Mnemonic) (s : State) : Host.Outcome State Fault Refusal :=
  prologue s m fun _ => .next (s.drawReply id)

/-- `RD.CTRL` (R98): the busy flag in bit `BIT_BUSY`, the other bits a draw; legal while busy. -/
def execRdCtrl (s : State) : Host.Outcome State Fault Refusal :=
  prologue s .rdCtrl fun t => .next (s.drawReply (controlValue s.cfg t.block.busy))

/-- `RD.CRC` (R99): the accumulator; `Fault.UnwrittenRead(CRC)` while it is unwritten. -/
def execRdCrc (s : State) : Host.Outcome State Fault Refusal :=
  prologue s .rdCrc fun t =>
    match t.block.get .crc with
    | none => .next (s.takeFault t (.unwrittenRead .crc))
    | some v => .next (s.complete t t.block (some v))

/-- `RD.ADDRH` (R100). -/
def execRdAddrh (s : State) : Host.Outcome State Fault Refusal := readOpen .rdAddrh s

/-- `RD.ADDRL` (R101). -/
def execRdAddrl (s : State) : Host.Outcome State Fault Refusal := readOpen .rdAddrl s

/-- `RD.DATAH` (R102). -/
def execRdDatah (s : State) : Host.Outcome State Fault Refusal := readOpen .rdDatah s

/-- `RD.DATAL` (R103). -/
def execRdDatal (s : State) : Host.Outcome State Fault Refusal := readOpen .rdDatal s

end Sys2Proof.Machine
end

