-- ==== Sys2Proof/Machine/WriteRegisters.lean ====
section
/-! DEFINITION. The register writes of 41_mailbox.md section 2 (R91 to R94). -/

namespace Sys2Proof.Machine

/-- A write of `v` to register `r`: `r <- some v`, nothing else. -/
def writeHalf (m : Mnemonic) (r : Reg) (v : Half) (s : State) : Host.Outcome State Fault Refusal :=
  prologue s m fun t => .next (s.complete t (t.block.set r (some v)) none)

/-- `WR.ADDRH v` (R91). -/
def execWrAddrh (v : Half) (s : State) : Host.Outcome State Fault Refusal :=
  writeHalf .wrAddrh .addrMsw v s

/-- `WR.ADDRL v` (R92). An operand with bit 1 or 0 set is refused as the decoder refuses its word
(R59), before the busy check (R146); no word decodes to it. Log 16. -/
def execWrAddrl (v : Half) (s : State) : Host.Outcome State Fault Refusal :=
  if v.aligned then writeHalf .wrAddrl .addrLsw v s
  else
    match s.target? with
    | none => .refused (.noSuchTarget s.sel)
    | some t => if t.block.stopped then .next s.noReply else .next (s.takeRefusal t (.misalignedAddress v))

/-- `WR.DATAH v` (R93). -/
def execWrDatah (v : Half) (s : State) : Host.Outcome State Fault Refusal :=
  writeHalf .wrDatah .dataMsw v s

/-- `WR.DATAL v` (R94). -/
def execWrDatal (v : Half) (s : State) : Host.Outcome State Fault Refusal :=
  writeHalf .wrDatal .dataLsw v s

end Sys2Proof.Machine
end

