-- ==== Sys2Proof/Machine/Dispatch.lean ====
section
/-! DEFINITION. One arm per instruction of 30_encoding.md R56. -/

namespace Sys2Proof.Machine

def exec (i : Instr) (s : State) : Host.Outcome State Fault Refusal :=
  match i with
  | .rdCtrl => Sys2Proof.Machine.execRdCtrl s
  | .rdCrc => Sys2Proof.Machine.execRdCrc s
  | .rdAddrh => Sys2Proof.Machine.execRdAddrh s
  | .rdAddrl => Sys2Proof.Machine.execRdAddrl s
  | .rdDatah => Sys2Proof.Machine.execRdDatah s
  | .rdDatal => Sys2Proof.Machine.execRdDatal s
  | .mbCrcrst => Sys2Proof.Machine.execMbCrcrst s
  | .mbXwr => Sys2Proof.Machine.execMbXwr s
  | .wrAddrh v => Sys2Proof.Machine.execWrAddrh v s
  | .wrAddrl v => Sys2Proof.Machine.execWrAddrl v s
  | .wrDatah v => Sys2Proof.Machine.execWrDatah v s
  | .wrDatal v => Sys2Proof.Machine.execWrDatal v s

end Sys2Proof.Machine
end

