-- ==== Sys2Proof/Machine/Engine.lean ====
section
/-! DEFINITION. The engine's own step `ENG.COMMIT` (41_mailbox.md R104). -/

namespace Sys2Proof.Machine

/-- The record after the word `d` has been committed at `a` (R104): the word is stored, the
accumulator takes its four bytes (and stays unwritten if it was), the pointer advances, the data
halves are consumed, `busy` falls; all in one step. -/
def Block.committed (b : Block) (a d : Word) : Block :=
  { ((b.setPointer (nextPointer a)).setData none).set .crc ((b.get .crc).map (fun c => crcWord c d)) with
    tmem := b.tmem.writeWord a d
    busy := false }

/-- `ENG.COMMIT` on one record. In the states a run reaches it cannot fail (R27, R104); where a half is
unwritten or `TMemWrite`'s precondition fails the spec gives it no meaning (log 17). -/
def commit (c : Config) (b : Block) : Except Fault Block :=
  match b.pointer? with
  | none => .error .commitOperandMissing
  | some a =>
    match b.dataWord? with
    | none => .error .commitOperandMissing
    | some d =>
      if writable c a then .ok (b.committed a d) else .error (.commitWriteForbidden a)

/-- The engine of target `k` commits; a step passes for every target. -/
def engineMove (k : Nat) (s : State) : Host.Outcome State Fault Refusal :=
  match s.targets[k]? with
  | none => .refused (.noSuchTarget k)
  | some t =>
    match commit s.cfg t.block with
    | .error f => .fault f
    | .ok b => .next { s with targets := (s.targets.map Target.tick).set k ⟨b, 0⟩ }

end Sys2Proof.Machine
end

