-- ==== Sys2Proof/Machine/HostAgent.lean ====
section
/-! DEFINITION. The host agent (00_scope.md R4, R9): which transaction it issues next and what it does
with the value returned, against any interface (42_host_protocol.md R129). The state machine of
41_mailbox.md is one such interface; a stand-in is another. -/

namespace Sys2Proof.Machine

/-- The target an operation is addressed to. -/
def HostOp.target : HostOp → Nat
  | .tx k _ => k
  | .poll k => k
  | .check k _ _ => k
  | .refuse k _ _ => k

/-- The transaction the host issues next: its target and its word. None when the script is at its end
or the next operation is a refusal before any transaction. -/
def HostAgent.request (c : Config) (h : HostAgent) : Option (Nat × TxWord) :=
  match h.script with
  | [] => none
  | .tx k t :: _ => some (k, t)
  | .poll k :: _ => some (k, encode c .rdCtrl)
  | .check k _ _ :: _ => some (k, encode c .rdCrc)
  | .refuse _ _ _ :: _ => none

/-- The comparison of R124, in a procedure with `more` operations to come, `rest` following, for an agent
whose last result was `result`. Equal: the procedure goes on, or returns `Ok` at its end. Not equal: it
returns `CrcMismatch` with both values and issues nothing more of itself, the enclosing `LOADFW` included
(R124, R127, R147). What stands after the procedure in the script is the caller's (R148), and the
agent goes on with it: DESIGN CHOICE, log 25. -/
def HostAgent.compare (result : Option (HostResult TransferError)) (rest : List HostOp) (more : Nat)
    (localCrc readback : Half) : HostAgent :=
  if readback = localCrc then ⟨rest, if more = 0 then some .ok else result⟩
  else ⟨rest.drop more, some (.err (.crcMismatch localCrc readback))⟩

/-- What the host does with the value returned. `POLL` tests the busy bit only (R120). A poll or a
comparison whose transaction returned nothing (its target's run is stopped) stays where it is (log 15).
A refused procedure returns nothing and issues nothing more of itself, the enclosing `LOADFW` included
(R123, R127): the agent's result becomes none and it goes on after the procedure (DESIGN CHOICE,
log 21). -/
def HostAgent.respond (c : Config) (h : HostAgent) (reply : Option Half) : HostAgent :=
  match h.script with
  | [] => h
  | .tx _ _ :: rest => { h with script := rest }
  | .poll _ :: rest =>
    match reply with
    | none => h
    | some r => if r.getLsbD c.bitBusy.val then h else { h with script := rest }
  | .check _ l more :: rest =>
    match reply with
    | none => h
    | some r => HostAgent.compare h.result rest more l r
  | .refuse _ _ more :: rest => ⟨rest.drop more, none⟩

/-! ### Several host agents (60_exceptions.md R152): their transactions interleave as atomic steps -/

/-- The agent still has something to issue. -/
def HostAgent.ready (h : HostAgent) : Bool := !h.script.isEmpty

/-- The turn of the next move: the one the run has fixed, or a free one (log 12). -/
def State.nextTurn (s : State) : Nat :=
  match s.turns with
  | n :: _ => n
  | [] => Config.hostTurn s.draws

/-- The turn of a move has been taken. -/
def State.takeTurn (s : State) : State :=
  match s.turns with
  | _ :: rest => { s with turns := rest }
  | [] => { s with draws := s.draws + 1 }

/-- The agents that have something to issue, each with its number. -/
def State.readyHosts (s : State) : List (HostAgent × Nat) := s.hosts.zipIdx.filter (fun p => p.1.ready)

/-- The agent that moves next, with its number: the only one that is ready, or the one among them that
the turn picks. -/
def State.mover (s : State) : Option (HostAgent × Nat) :=
  match s.readyHosts with
  | [] => none
  | [p] => some p
  | p :: q :: rest => (p :: q :: rest)[s.nextTurn % (rest.length + 2)]?

/-- The host run against any interface (R129): a device with its own state `σ` that answers each
transaction, for at most the given number of operations. Answers the transactions issued, the host's
last state and the device's. -/
def HostAgent.runAgainst {σ : Type} (c : Config) (device : σ → Nat → TxWord → σ × Option Half) :
    Nat → HostAgent → σ → List (Nat × TxWord) × HostAgent × σ
  | 0, h, d => ([], h, d)
  | n + 1, h, d =>
    match h.request c with
    | none => HostAgent.runAgainst c device n (h.respond c none) d
    | some (k, t) =>
      let (d', r) := device d k t
      let (log, h', d'') := HostAgent.runAgainst c device n (h.respond c r) d'
      ((k, t) :: log, h', d'')

end Sys2Proof.Machine
end

