-- ==== Sys2Proof/Machine/HostProc.lean ====
section
/-! DEFINITION. The pseudo-instructions of 30_encoding.md R61 and 42_host_protocol.md: each expands to
operations of the host agent, between any two of which the engine may commit (R8). -/

namespace Sys2Proof.Machine

/-- Four bytes of a segment packed into the data word, the first in bits 7:0 (R35, R121, D7). -/
def packWord (b0 b1 b2 b3 : Byte) : Word := b3 ++ b2 ++ b1 ++ b0

/-- `words_of(data)` (R121): chunks of four bytes, the last padded with zero bytes. -/
def wordsOf : List Byte → List Word
  | [] => []
  | [b0] => [packWord b0 0#8 0#8 0#8]
  | [b0, b1] => [packWord b0 b1 0#8 0#8]
  | [b0, b1, b2] => [packWord b0 b1 b2 0#8]
  | b0 :: b1 :: b2 :: b3 :: rest => packWord b0 b1 b2 b3 :: wordsOf rest

/-- The host's local running CRC over the words sent, from `CRC_INIT` (R122). -/
def localCrc (c : Config) (words : List Word) : Half := words.foldl crcWord c.crcInit

/-- One transaction of target `k`. -/
def issueOp (c : Config) (k : Nat) (i : Instr) : HostOp := .tx k (encode c i)

/-- `SETADDR a` (R61): upper half first. -/
def setAddr (c : Config) (k : Nat) (a : Word) : List HostOp :=
  [issueOp c k (.wrAddrh (upperHalf a)), issueOp c k (.wrAddrl (lowerHalf a))]

/-- `SETDATA d` (R61): upper half first. -/
def setDataOps (c : Config) (k : Nat) (d : Word) : List HostOp :=
  [issueOp c k (.wrDatah (upperHalf d)), issueOp c k (.wrDatal (lowerHalf d))]

/-- `POLL` (R120). -/
def pollOps (k : Nat) : List HostOp := [.poll k]

/-- `PUSHW d` (R123). -/
def pushWord (c : Config) (k : Nat) (d : Word) : List HostOp :=
  setDataOps c k d ++ [issueOp c k .mbXwr] ++ pollOps k

/-- The words of a segment pushed in order (R123). -/
def pushWords (c : Config) (k : Nat) : List Word → List HostOp
  | [] => []
  | w :: ws => pushWord c k w ++ pushWords c k ws

/-- `LOADSEG base, data` with an aligned base (R123, R124), `more` operations before the end of the
procedure it is part of. -/
def loadSegOps (c : Config) (k : Nat) (base : Word) (data : List Byte) (more : Nat) : List HostOp :=
  [issueOp c k .mbCrcrst] ++ setAddr c k base ++ pushWords c k (wordsOf data) ++
    [.check k (localCrc c (wordsOf data)) more]

/-- `LOADSEG base, data` (R123) in a procedure with `more` operations after it: a misaligned base is
refused before any transaction (R36). -/
def loadSegWithin (c : Config) (k : Nat) (base : Word) (data : List Byte) (more : Nat) : List HostOp :=
  if wordAligned base then loadSegOps c k base data more
  else [.refuse k (.misalignedAddress (lowerHalf base)) more]

/-- `LOADSEG base, data` by itself (R123). -/
def loadSeg (c : Config) (k : Nat) (base : Word) (data : List Byte) : List HostOp :=
  loadSegWithin c k base data 0

/-- `LOADFW dbase, dram, ibase, iram` (R127): the DRAM segment, then the IRAM segment, which is not
attempted when the first fails or is refused. It returns `Ok` when both segments do. -/
def loadFw (c : Config) (k : Nat) (dbase : Word) (dram : List Byte) (ibase : Word)
    (iram : List Byte) : List HostOp :=
  loadSegWithin c k dbase dram (loadSeg c k ibase iram).length ++ loadSeg c k ibase iram

/-- `BLOBCHK blob` (R126): no transaction. -/
def blobChk (c : Config) (blob : List Byte) : HostResult ParseError := blobCrcOk c.blobSeed blob

/-- A boot attempt, check before touch (R126, R164): the load follows only a blob that passes, and on
an error no transaction is issued. -/
def bootAttempt (c : Config) (k : Nat) (blob : List Byte) (dbase : Word) (dram : List Byte)
    (ibase : Word) (iram : List Byte) : HostResult ParseError × List HostOp :=
  match blobChk c blob with
  | .ok => (.ok, loadFw c k dbase dram ibase iram)
  | .err e => (.err e, [])

/-- A host that is about to run a script. -/
def HostAgent.start (script : List HostOp) : HostAgent := ⟨script, none⟩

end Sys2Proof.Machine
end

