-- ==== Sys2Proof/Machine/Transaction.lean ====
section
/-! DEFINITION. One move of a host agent: the next operation of its script reaches the registers
(00_scope.md R8 (a), 41_mailbox.md R90). The machine fetches nothing; the word the host issues is
what a processor would fetch. -/

namespace Sys2Proof.Machine

/-- A transaction word `w` reaches the registers of target `k` (R90): a stopped run keeps its state; a
word with no meaning is refused before anything else is read (R62); otherwise its instruction. -/
def issue (k : Nat) (w : TxWord) (s : State) : Host.Outcome State Fault Refusal :=
  match (s.select k).target? with
  | none => .refused (.noSuchTarget k)
  | some t =>
    if t.block.stopped then .next (s.select k)
    else
      match decode s.cfg w with
      | .instr i => exec i (s.select k)
      | .refuse r => .next ((s.select k).takeRefusal t r)

/-- The host procedure refuses before any transaction (R123): the mark is set. -/
def refuseBefore (k : Nat) (r : Refuse) (s : State) : Host.Outcome State Fault Refusal :=
  match (s.select k).target? with
  | none => .refused (.noSuchTarget k)
  | some t => if t.block.stopped then .next (s.select k) else .next ((s.select k).takeRefusal t r)

/-- Agent `n`, which was `h`, learns what its transaction returned. -/
def State.hostLearns (h : HostAgent) (n : Nat) (s : State) : State :=
  { s with hosts := s.hosts.set n (h.respond s.cfg s.reply) }

/-- One move of a host agent (R40, R152). With nothing to issue the registers are left alone (log 13). -/
def hostMove (s : State) : Host.Outcome State Fault Refusal :=
  match s.mover with
  | none => .next s
  | some (h, n) =>
    match h.script with
    | .refuse k r _ :: _ => mapNext (State.hostLearns h n) (refuseBefore k r s.takeTurn)
    | _ =>
      match h.request s.cfg with
      | none => .next s
      | some (k, w) => mapNext (State.hostLearns h n) (issue k w s.takeTurn)

/-- Let a due engine pass one more step. -/
def Target.hold (t : Target) : Target := if t.due then { t with wait := 1 } else t

/-- An operation at the head of the first agent's script. -/
def placeFirst (op : HostOp) : List HostAgent → List HostAgent
  | [] => [⟨[op], none⟩]
  | h :: rest => { h with script := op :: h.script } :: rest

/-- Place one transaction word so that the very next step issues it to the addressed target: it goes to
the head of the first agent's script, that agent has the next turn, and no engine is due first
(log 18). -/
def State.placeWord (s : State) (w : TxWord) : State :=
  { s with
    targets := s.targets.map Target.hold
    hosts := placeFirst (.tx s.sel w) s.hosts
    turns := 0 :: s.turns }

end Sys2Proof.Machine
end

