-- ==== Sys2Proof/Machine/Step.lean ====
section
/-! DEFINITION. One step of the machine (00_scope.md R8): the engine's commit when it is due, else one
move of a host agent. Every step is atomic and total. -/

namespace Sys2Proof.Machine

/-- One step: the first engine that is due commits; if none is, the host moves and the waits of all
targets run down. -/
def step (s : State) : Host.Outcome State Fault Refusal :=
  match s.due with
  | some k => engineMove k s
  | none => hostMove s.tick

/-- `s` with the transaction word of an opcode-table row placed where the next step takes it from. -/
def State.withFetchWord (s : State) (nbits w : Nat) : State :=
  s.placeWord (BitVec.ofNat 20 (w % 2 ^ nbits))

end Sys2Proof.Machine
end

