-- ==== Sys2Proof/Machine/Assembler.lean ====
section
/-! DEFINITION. The assembler syntax of 30_encoding.md R60: one transaction a line, the mnemonic in
capitals, one operand for the four `WR.` mnemonics, hexadecimal with the prefix `0x` or decimal, and
`;` starting a comment. What R60 leaves open of the layout of a line is in log 24. -/

namespace Sys2Proof.Machine

/-- A mnemonic as R56 spells it. -/
def Mnemonic.text : Mnemonic → String
  | .rdCtrl => "RD.CTRL"
  | .rdCrc => "RD.CRC"
  | .rdAddrh => "RD.ADDRH"
  | .rdAddrl => "RD.ADDRL"
  | .rdDatah => "RD.DATAH"
  | .rdDatal => "RD.DATAL"
  | .mbCrcrst => "MB.CRCRST"
  | .mbXwr => "MB.XWR"
  | .wrAddrh => "WR.ADDRH"
  | .wrAddrl => "WR.ADDRL"
  | .wrDatah => "WR.DATAH"
  | .wrDatal => "WR.DATAL"

/-- The mnemonics that stand alone on a line. -/
def plainInstrs : List Instr :=
  [.rdCtrl, .rdCrc, .rdAddrh, .rdAddrl, .rdDatah, .rdDatal, .mbCrcrst, .mbXwr]

/-- The mnemonics with an operand. -/
def operandInstrs (v : Half) : List Instr := [.wrAddrh v, .wrAddrl v, .wrDatah v, .wrDatal v]

/-- The instruction among `is` whose mnemonic is spelled `cs`. -/
def spelled (cs : List Char) (is : List Instr) : Option Instr :=
  is.find? (fun i => (mnemonicOf i).text.toList == cs)

/-- Cut a text at every character that `p` picks; the pieces in order, empty ones included. -/
def pieces (p : Char → Bool) (cs : List Char) : List (List Char) :=
  cs.foldr
    (fun c acc =>
      if p c then [] :: acc
      else
        match acc with
        | [] => [[c]]
        | piece :: rest => (c :: piece) :: rest)
    [[]]

/-- The value of a digit in a base up to 16. -/
def digitValue (base : Nat) (c : Char) : Option Nat :=
  let v :=
    if '0' ≤ c ∧ c ≤ '9' then c.toNat - '0'.toNat
    else if 'A' ≤ c ∧ c ≤ 'F' then c.toNat - 'A'.toNat + 10
    else if 'a' ≤ c ∧ c ≤ 'f' then c.toNat - 'a'.toNat + 10
    else 16
  if v < base then some v else none

/-- Digits read in a base, most significant first, after the value `n` read so far. -/
def digitsValue (base : Nat) : List Char → Nat → Option Nat
  | [], n => some n
  | c :: cs, n =>
    match digitValue base c with
    | none => none
    | some d => digitsValue base cs (n * base + d)

/-- A 16-bit unsigned operand: `0x` and hexadecimal digits, or decimal digits. -/
def operandValue (cs : List Char) : Option Half :=
  let value :=
    match cs with
    | [] => none
    | ['0', 'x'] => none
    | '0' :: 'x' :: hex => digitsValue 16 hex 0
    | dec => digitsValue 10 dec 0
  match value with
  | none => none
  | some n => if n < 2 ^ 16 then some (BitVec.ofNat 16 n) else none

/-- The transaction on a line: none for a line this syntax does not have, an empty list for a line with
no transaction. -/
def assembleLine (cs : List Char) : Option (List Instr) :=
  let code := cs.takeWhile (fun c => c != ';')
  match (pieces (fun c => c == ' ' || c == '\t') code).filter (fun t => !t.isEmpty) with
  | [] => some []
  | [m] => (spelled m plainInstrs).map (fun i => [i])
  | [m, x] =>
    match operandValue x with
    | none => none
    | some v => (spelled m (operandInstrs v)).map (fun i => [i])
  | _ => none

/-- The transactions of lines, in order; none if some line is not in this syntax. -/
def assembleLines : List (List Char) → Option (List Instr)
  | [] => some []
  | l :: ls =>
    match assembleLine l, assembleLines ls with
    | some is, some js => some (is ++ js)
    | _, _ => none

/-- A program text to its transaction words. -/
def assemble (c : Config) (text : String) : Option (List TxWord) :=
  (assembleLines (pieces (fun ch => ch == '\n') text.toList)).map (fun is => is.map (encode c))

end Sys2Proof.Machine
end

