-- ==== Sys2Proof/Safety.lean ====
section
/-! DEFINITION. What every reachable state satisfies (10_state.md R27) and what a successful run is
(R23), in the terms the statements use. -/

namespace Sys2Proof.Machine

/-- The invariant of one target's record (R27), in states with and without a mark. -/
structure Block.Inv (c : Config) (b : Block) : Prop where
  /-- Target memory keeps its canonical form. -/
  memory : b.tmem.wf
  /-- R27 (a): a written lower address half is word aligned. -/
  aligned : ∀ v, b.addrLsw = some v → v.aligned = true
  /-- R27 (b): while a word is in flight all four halves are written and its address is valid. -/
  inFlight : b.busy = true →
    ∃ a d, b.pointer? = some a ∧ b.dataWord? = some d ∧ tmemValid c a = true
  /-- R27 (c): target memory is written only at valid addresses. -/
  valid : ∀ x, (b.tmem.read x).isSome = true → tmemValid c (BitVec.ofNat 32 (x - x % 4)) = true
  /-- Target memory is written by whole words (R22, R32). -/
  wholeWords : ∀ x, (b.tmem.read x).isSome = (b.tmem.read (x - x % 4)).isSome
  /-- At most one mark is set (R23). -/
  oneMark : b.fault = none ∨ b.refused = none

/-- The invariant of the machine: as many records as `N_TARGETS` (R24), one of them addressed, and each
in the invariant of R27. -/
structure State.Inv (s : State) : Prop where
  count : s.targets.length = s.cfg.nTargets
  addressed : s.sel < s.targets.length
  blocks : ∀ t ∈ s.targets, t.block.Inv s.cfg

/-- No target has recorded a fault or a refusal: what a final state of a successful run is (R23). -/
def State.unmarked (s : State) : Bool := s.targets.all (fun t => !t.block.stopped)

/-- Bit `n` of a message, in the order in which the codec takes the bits (R70, R71). -/
def messageBit (d : List Byte) (n : Nat) : Bool := (d.getD (n / 8) 0#8).getLsbD (7 - n % 8)

/-- The lines of R142's table that apply to a transaction word, under the default parameters; the
second bullet of R62's order (`ReservedRegister` first) is in the condition `idx <= 5` of the
second line. -/
def refusalLines (t : TxWord) : List Refuse :=
  (if t.idx = 6#3 ∨ t.idx = 7#3 then [Refuse.reservedRegister t.idx] else []) ++
  (if t.isWrite = false ∧ t.idx.toNat ≤ 5 ∧ t.data ≠ 0#16 then [Refuse.malformedTransaction] else []) ++
  (if t.isWrite = true ∧ t.idx = 1#3 then [Refuse.readOnlyRegister] else []) ++
  (if t.isWrite = true ∧ t.idx = 0#3 ∧ t.data ≠ 0x1000#16 ∧ t.data ≠ 0xC000#16 then
    [Refuse.reservedCommand t.data] else []) ++
  (if t.isWrite = true ∧ t.idx = 3#3 ∧ t.data.extractLsb' 0 2 ≠ 0#2 then
    [Refuse.misalignedAddress t.data] else [])

/-- The host runs `loadSeg` against a stand-in that answers each word by itself (R129). -/
def standIn (f : TxWord → Half) : Unit → Nat → TxWord → Unit × Option Half :=
  fun _ _ w => ((), some (f w))

/-- The transactions of a `LOADSEG` whose polls end at once, in order (R123). -/
def loadSegTransactions (c : Config) (k : Nat) (base : Word) (data : List Byte) :
    List (Nat × TxWord) :=
  ([encode c .mbCrcrst, encode c (.wrAddrh (upperHalf base)), encode c (.wrAddrl (lowerHalf base))] ++
    (wordsOf data).flatMap (fun w =>
      [encode c (.wrDatah (upperHalf w)), encode c (.wrDatal (lowerHalf w)), encode c .mbXwr,
        encode c .rdCtrl]) ++
    [encode c .rdCrc]).map (fun w => (k, w))

/-- What a correct `LOADSEG` of `data` to `base` leaves of a record `b` (R125, R106): `b'` has the words
stored and nothing else stored, the local CRC in the accumulator, the pointer past the segment, busy
clear and no mark. The data halves are unwritten, having been consumed by the last commit. Without a word
to push R106's "data halves unwritten" meets R91, R92 and R96, which let nothing else change: they keep
what they held (DEDUCED, log 26). -/
structure SegmentStored (c : Config) (base : Word) (data : List Byte) (b b' : Block) : Prop where
  words : ∀ i, i < (wordsOf data).length →
    b'.tmem.readWord (base + BitVec.ofNat 32 (4 * i)) = (wordsOf data)[i]?
  elsewhere : ∀ a, a < base.toNat ∨ base.toNat + 4 * (wordsOf data).length ≤ a →
    b'.tmem.read a = b.tmem.read a
  crc : b'.crc = some (localCrc c (wordsOf data))
  pointer : b'.pointer? =
    if base.toNat + 4 * (wordsOf data).length = 2 ^ 32 then none
    else some (base + BitVec.ofNat 32 (4 * (wordsOf data).length))
  dataMsw : b'.dataMsw = if data = [] then b.dataMsw else none
  dataLsw : b'.dataLsw = if data = [] then b.dataLsw else none
  busy : b'.busy = false
  fault : b'.fault = none
  refused : b'.refused = none

/-- `n` steps of the machine. -/
def runSteps (n : Nat) (s : State) : Host.Outcome State Fault Refusal := Sys2Proof.core.run n s

end Sys2Proof.Machine
end

