-- ==== Sys2Proof/Certificates/Slice0/Obligations.lean ====
section
/-! DEFINITION. The statements for the provers, from the spec's numbered rules. Every statement is over
all states, or all words, bytes and parameters, that its hypotheses admit; a free value (a draw, a
wait) stands in them unconstrained. -/

open Sys2Proof Sys2Proof.Machine

/-! ### Encoding -/

/-- Decoding the encoding of a well-formed instruction gives it back, with every operand and under
every well-formed choice of indices and bit positions (R50, R51, R52, R56). -/
def Obligations.DecodeOfEncode : Prop :=
  ∀ (c : Config) (i : Instr), c.wf = true → i.wf = true → decode c (encode c i) = .instr i

/-- A word that decodes to an instruction is that instruction's encoding, and the instruction is well
formed: no two words share a meaning (R56). -/
def Obligations.EncodeOfDecode : Prop :=
  ∀ (c : Config) (t : TxWord) (i : Instr), decode c t = .instr i → i.wf = true ∧ encode c i = t

/-- R56: a word is the instruction of a row exactly when `t & mask = match`, and the rows are pairwise
disjoint. -/
def Obligations.TableRowsSelectInstructions : Prop :=
  (∀ (t : TxWord) (i : Instr), t &&& rowMask i = rowMatch i ↔
    ∃ j, decode Config.default t = .instr j ∧ mnemonicOf j = mnemonicOf i) ∧
  (∀ (t : TxWord) (i j : Instr), t &&& rowMask i = rowMatch i → t &&& rowMask j = rowMatch j →
    mnemonicOf i = mnemonicOf j)

/-- R57, R59: every reserved word is refused by the name of the line that applies to it. -/
def Obligations.ReservedWordsRefusedByName : Prop :=
  ∀ (t : TxWord) (r : Refuse), decode Config.default t = .refuse r ↔ refusalLines t = [r]

/-- R62: the decoder is total; a word that matches a row is that row's instruction and otherwise
exactly one refusal line applies, `ReservedRegister` before `MalformedTransaction`; and a reserved
word is refused, not faulted, even while `busy` is true. -/
def Obligations.DecoderIsTotal : Prop :=
  (∀ t : TxWord,
    ((∃ i, t &&& rowMask i = rowMatch i) ∧ refusalLines t = [] ∧ ∃ j, decode Config.default t = .instr j) ∨
    ((∀ i, t &&& rowMask i ≠ rowMatch i) ∧
      ∃ r, refusalLines t = [r] ∧ decode Config.default t = .refuse r)) ∧
  (∀ t : TxWord, t.idx = 6#3 ∨ t.idx = 7#3 → decode Config.default t = .refuse (.reservedRegister t.idx)) ∧
  (∀ (s : State) (k : Nat) (x : Target) (w : TxWord) (r : Refuse), s.targets[k]? = some x →
    x.block.fault = none → x.block.refused = none → decode s.cfg w = .refuse r →
    issue k w s = .next { s with
      sel := k
      reply := none
      targets := s.targets.set k { x with block := { x.block with refused := some r } } })

/-- Words written out from R56's table and from the reserved lines decode as they stand there. -/
def Obligations.WrittenOutWordsDecode : Prop :=
  decode Config.default 0x00000#20 = .instr .rdCtrl ∧
  decode Config.default 0x10000#20 = .instr .rdCrc ∧
  decode Config.default 0x81000#20 = .instr .mbCrcrst ∧
  decode Config.default 0x8C000#20 = .instr .mbXwr ∧
  decode Config.default 0xAFFFF#20 = .instr (.wrAddrh 0xFFFF#16) ∧
  decode Config.default 0xBFFFC#20 = .instr (.wrAddrl 0xFFFC#16) ∧
  decode Config.default 0xC1234#20 = .instr (.wrDatah 0x1234#16) ∧
  decode Config.default 0xDFFFF#20 = .instr (.wrDatal 0xFFFF#16) ∧
  decode Config.default 0x88000#20 = .refuse (.reservedCommand 0x8000#16) ∧
  decode Config.default 0x61234#20 = .refuse (.reservedRegister 6#3)

/-- The assembler's example lines (R60). -/
def Obligations.AssemblerExamples : Prop :=
  assemble Config.default "WR.ADDRH 0x4000" = some [0xA4000#20] ∧
  assemble Config.default "MB.XWR" = some [0x8C000#20] ∧
  assemble Config.default "RD.CRC" = some [0x10000#20]

/-! ### The codec -/

/-- R70: the division step and its corner cases. -/
def Obligations.CrcBitIsDivisionStep : Prop :=
  (∀ (c : Half) (x : Bool), crcBit c x =
    if (c.getLsbD 15 ^^ x) = true then (c <<< 1) ^^^ 0x1021#16 else c <<< 1) ∧
  crcBit 0x0000#16 false = 0x0000#16 ∧ crcBit 0x8000#16 true = 0x0000#16 ∧
  crcBit 0x8000#16 false = 0x1021#16

/-- R71: the byte's bits enter most significant first (D6); the equal form with the byte exclusive-ored
into bits 15:8 first and eight shifts after it; the byte counts only through `c[15:8] ^ b`. -/
def Obligations.CrcStepEqualForm : Prop :=
  (∀ (c : Half) (b : Byte), crcStep c b =
    crcBit (crcBit (crcBit (crcBit (crcBit (crcBit (crcBit (crcBit c (b.getLsbD 7)) (b.getLsbD 6))
      (b.getLsbD 5)) (b.getLsbD 4)) (b.getLsbD 3)) (b.getLsbD 2)) (b.getLsbD 1)) (b.getLsbD 0)) ∧
  (∀ (c : Half) (b : Byte), crcStep c b =
    (fun v : Half => if v.getLsbD 15 = true then (v <<< 1) ^^^ 0x1021#16 else v <<< 1)^[8]
      (c ^^^ (b.setWidth 16 <<< 8))) ∧
  (∀ (c : Half) (b : Byte), crcStep c b =
    crcStep (c &&& 0x00FF#16) (c.extractLsb' 8 8 ^^^ b)) ∧
  crcStep 0x0000#16 0x00#8 = 0x0000#16 ∧ crcStep 0x0000#16 0x01#8 = 0x1021#16

/-- R72: the printed table holds `crc_step(0, i)` for `i` = 0 to 255, and the table-driven form equals
the bitwise one for every accumulator and byte. -/
def Obligations.CrcTableForm : Prop :=
  crcTable.length = 256 ∧
  (∀ i : Byte, crcTable[i.toNat]? = some (crcStep 0x0000#16 i)) ∧
  (∀ (c : Half) (b : Byte), crcStep c b =
    (c <<< 8) ^^^ crcTable.getD (c.extractLsb' 8 8 ^^^ b).toNat 0#16)

/-- R73: `crc16` takes the bytes one after the other from the seed, for any length; zeros keep a zero
accumulator; the two worked values of "123456789". -/
def Obligations.CrcOverBuffer : Prop :=
  (∀ s : Half, crc16 s [] = s) ∧
  (∀ (s : Half) (d : List Byte) (b : Byte), crc16 s (d ++ [b]) = crcStep (crc16 s d) b) ∧
  (∀ n : Nat, crc16 0x0000#16 (List.replicate n 0x00#8) = 0x0000#16) ∧
  (∀ (n : Nat) (d : List Byte), crc16 0x0000#16 (List.replicate n 0x00#8 ++ d) = crc16 0x0000#16 d) ∧
  crc16 0x0000#16 [0x31, 0x32, 0x33, 0x34, 0x35, 0x36, 0x37, 0x38, 0x39] = 0x31C3#16 ∧
  crc16 0xFFFF#16 [0x31, 0x32, 0x33, 0x34, 0x35, 0x36, 0x37, 0x38, 0x39] = 0x29B1#16

/-- R75: a word enters the checksum most significant byte first. -/
def Obligations.CrcOverWord : Prop :=
  (∀ (c : Half) (w : Word), crcWord c w = crc16 c [w.extractLsb' 24 8, w.extractLsb' 16 8,
    w.extractLsb' 8 8, w.extractLsb' 0 8]) ∧
  crcWord 0x0000#16 0x00000000#32 = 0x0000#16 ∧ crcWord 0xFFFF#16 0x00000000#32 = 0x84C0#16 ∧
  crcWord 0x0000#16 0x12345678#32 = 0xB42C#16

/-- R74: chaining. -/
def Obligations.CrcChaining : Prop :=
  (∀ (s : Half) (a b : List Byte), crc16 s (a ++ b) = crc16 (crc16 s a) b) ∧
  (∀ s : Half, crc16 s [] = s)

/-- R80: linearity over GF(2), with its consequences. -/
def Obligations.CrcLinear : Prop :=
  (∀ (s t : Half) (d e : List Byte), d.length = e.length →
    crc16 (s ^^^ t) (List.zipWith (· ^^^ ·) d e) = crc16 s d ^^^ crc16 t e) ∧
  (∀ (s : Half) (d : List Byte), crc16 s d =
    crc16 0#16 d ^^^ crc16 s (List.replicate d.length 0#8)) ∧
  (∀ n : Nat, crc16 0#16 (List.replicate n 0#8) = 0#16) ∧
  (∀ (c : Half) (b : Byte), crcStep c b =
    crcStep (c &&& 0x00FF#16) 0#8 ^^^ crcStep 0#16 (c.extractLsb' 8 8 ^^^ b))

/-- R77: a message followed by its own checksum, high byte first, leaves zero; so a blob that passes
the trailer check has checksum zero over its whole length. -/
def Obligations.CrcResidueIsZero : Prop :=
  (∀ (s : Half) (d : List Byte),
    crc16 s (d ++ [(crc16 s d).extractLsb' 8 8, (crc16 s d).extractLsb' 0 8]) = 0x0000#16) ∧
  (∀ (seed : Half) (blob : List Byte), blobCrcOk seed blob = .ok → crc16 seed blob = 0x0000#16)

/-- R78: messages of one length that differ, but only within one window of 16 consecutive bits, have
different checksums. -/
def Obligations.CrcDetectsBurst : Prop :=
  ∀ (s : Half) (d e : List Byte) (p : Nat), d.length = e.length → d ≠ e →
    (∀ n, n < 8 * d.length → messageBit d n ≠ messageBit e n → p ≤ n ∧ n < p + 16) →
    crc16 s d ≠ crc16 s e

/-- R79: the trailer check of a blob, with the seed `BLOB_SEED` (default 0x0000, D2) and with any
other; a blob shorter than its trailer is `OutOfBounds` (D22). -/
def Obligations.BlobTrailerCheck : Prop :=
  (∀ (c : Config) (blob : List Byte), blobChk c blob = blobCrcOk c.blobSeed blob) ∧
  Config.default.blobSeed = 0x0000#16 ∧
  (∀ (seed : Half) (blob : List Byte), blob.length < 2 → blobCrcOk seed blob = .err .outOfBounds) ∧
  (∀ (seed : Half) (body : List Byte) (hi lo : Byte), crc16 seed body = hi ++ lo →
    blobCrcOk seed (body ++ [hi, lo]) = .ok) ∧
  (∀ (seed : Half) (body : List Byte) (hi lo : Byte), crc16 seed body ≠ hi ++ lo →
    blobCrcOk seed (body ++ [hi, lo]) = .err (.crcMismatch (crc16 seed body) (hi ++ lo)))

/-- A blob that passes and then has exactly one byte outside the trailer changed fails with
`CrcMismatch` (R126, R78). -/
def Obligations.MutatedBlobFails : Prop :=
  ∀ (seed : Half) (pre post : List Byte) (x y hi lo : Byte), x ≠ y →
    blobCrcOk seed (pre ++ [x] ++ post ++ [hi, lo]) = .ok →
    ∃ computed : Half, computed ≠ hi ++ lo ∧
      blobCrcOk seed (pre ++ [y] ++ post ++ [hi, lo]) = .err (.crcMismatch computed (hi ++ lo))

/-! ### The instructions -/

/-- R91, R92: the address writes. A lower half that is not word aligned is refused by decoding (D9).
With no word in flight the addressed half takes the value and nothing
else changes; while a word is in flight they fault. -/
def Obligations.AddressWrites : Prop :=
  (∀ v : Half, encode Config.default (.wrAddrh v) = 0xA0000#20 ||| v.setWidth 20) ∧
  (∀ v : Half, encode Config.default (.wrAddrl v) = 0xB0000#20 ||| v.setWidth 20) ∧
  (∀ v : Half, v.extractLsb' 0 2 ≠ 0#2 →
    decode Config.default (0xB0000#20 ||| v.setWidth 20) = .refuse (.misalignedAddress v)) ∧
  (∀ (s : State) (t : Target) (v : Half), s.target? = some t → t.block.fault = none →
    t.block.refused = none → t.block.busy = false →
    exec (.wrAddrh v) s = .next { s with
      reply := none
      targets := s.targets.set s.sel { t with block := { t.block with addrMsw := some v } } }) ∧
  (∀ (s : State) (t : Target) (v : Half), s.target? = some t → t.block.fault = none →
    t.block.refused = none → t.block.busy = false → v.extractLsb' 0 2 = 0#2 →
    exec (.wrAddrl v) s = .next { s with
      reply := none
      targets := s.targets.set s.sel { t with block := { t.block with addrLsw := some v } } }) ∧
  (∀ (s : State) (t : Target) (v : Half), s.target? = some t → t.block.fault = none →
    t.block.refused = none → t.block.busy = true →
    exec (.wrAddrh v) s = .next { s with
      reply := none
      targets := s.targets.set s.sel
        { t with block := { t.block with fault := some (.busyAccess .wrAddrh) } } }) ∧
  (∀ (s : State) (t : Target) (v : Half), s.target? = some t → t.block.fault = none →
    t.block.refused = none → t.block.busy = true → v.extractLsb' 0 2 = 0#2 →
    exec (.wrAddrl v) s = .next { s with
      reply := none
      targets := s.targets.set s.sel
        { t with block := { t.block with fault := some (.busyAccess .wrAddrl) } } })

/-- R93, R94: the data writes, in the same form. -/
def Obligations.DataWrites : Prop :=
  (∀ v : Half, encode Config.default (.wrDatah v) = 0xC0000#20 ||| v.setWidth 20) ∧
  (∀ v : Half, encode Config.default (.wrDatal v) = 0xD0000#20 ||| v.setWidth 20) ∧
  (∀ (s : State) (t : Target) (v : Half), s.target? = some t → t.block.fault = none →
    t.block.refused = none → t.block.busy = false →
    exec (.wrDatah v) s = .next { s with
      reply := none
      targets := s.targets.set s.sel { t with block := { t.block with dataMsw := some v } } } ∧
    exec (.wrDatal v) s = .next { s with
      reply := none
      targets := s.targets.set s.sel { t with block := { t.block with dataLsw := some v } } }) ∧
  (∀ (s : State) (t : Target) (v : Half), s.target? = some t → t.block.fault = none →
    t.block.refused = none → t.block.busy = true →
    exec (.wrDatah v) s = .next { s with
      reply := none
      targets := s.targets.set s.sel
        { t with block := { t.block with fault := some (.busyAccess .wrDatah) } } } ∧
    exec (.wrDatal v) s = .next { s with
      reply := none
      targets := s.targets.set s.sel
        { t with block := { t.block with fault := some (.busyAccess .wrDatal) } } })

/-- R96: `MB.CRCRST` sets `CRC` to `CRC_INIT`, whether or not it was written, and nothing else. -/
def Obligations.CrcResetCommand : Prop :=
  encode Config.default .mbCrcrst = 0x81000#20 ∧
  (∀ (s : State) (t : Target), s.target? = some t → t.block.fault = none →
    t.block.refused = none → t.block.busy = false →
    exec .mbCrcrst s = .next { s with
      reply := none
      targets := s.targets.set s.sel { t with block := { t.block with crc := some s.cfg.crcInit } } }) ∧
  (∀ (s : State) (t : Target), s.target? = some t → t.block.fault = none →
    t.block.refused = none → t.block.busy = true →
    exec .mbCrcrst s = .next { s with
      reply := none
      targets := s.targets.set s.sel
        { t with block := { t.block with fault := some (.busyAccess .mbCrcrst) } } })

/-- R97 (D10, D20): `MB.XWR` checks the address halves, then the data halves, then `TMEM_VALID`, and only
then raises `busy`, its one change of the record; nothing is said here of the engine's wait. -/
def Obligations.ExecuteWriteCommand : Prop :=
  encode Config.default .mbXwr = 0x8C000#20 ∧
  (∀ (s : State) (t : Target), s.target? = some t → t.block.fault = none →
    t.block.refused = none → t.block.busy = false →
    (t.block.addrMsw = none ∨ t.block.addrLsw = none →
      exec .mbXwr s = .next { s with
        reply := none
        targets := s.targets.set s.sel
          { t with block := { t.block with fault := some (.unwrittenOperand .addr) } } }) ∧
    (∀ ah al : Half, t.block.addrMsw = some ah → t.block.addrLsw = some al →
      (t.block.dataMsw = none ∨ t.block.dataLsw = none →
        exec .mbXwr s = .next { s with
          reply := none
          targets := s.targets.set s.sel
            { t with block := { t.block with fault := some (.unwrittenOperand .data) } } }) ∧
      (∀ dh dl : Half, t.block.dataMsw = some dh → t.block.dataLsw = some dl →
        (tmemValid s.cfg (ah ++ al) = false →
          exec .mbXwr s = .next { s with
            reply := none
            targets := s.targets.set s.sel
              { t with block := { t.block with fault := some (.targetAddressInvalid (ah ++ al)) } } }) ∧
        (tmemValid s.cfg (ah ++ al) = true →
          ∃ u d, exec .mbXwr s = .next u ∧ u.reply = none ∧ u.cfg = s.cfg ∧ u.sel = s.sel ∧
            u.hosts = s.hosts ∧ u.reads = s.reads ∧
            u.targets = s.targets.set s.sel ⟨{ t.block with busy := true }, d⟩)))) ∧
  (∀ (s : State) (t : Target), s.target? = some t → t.block.fault = none →
    t.block.refused = none → t.block.busy = true →
    exec .mbXwr s = .next { s with
      reply := none
      targets := s.targets.set s.sel
        { t with block := { t.block with fault := some (.busyAccess .mbXwr) } } })

/-- R98: `RD.CTRL` runs while `busy` too, returns the flag in bit `BIT_BUSY` and a draw in every other
bit, and changes no record. -/
def Obligations.ReadControl : Prop :=
  encode Config.default .rdCtrl = 0x00000#20 ∧
  (∀ (s : State) (t : Target), s.target? = some t → t.block.fault = none →
    t.block.refused = none →
    ∃ u r, exec .rdCtrl s = .next u ∧ u.reply = some r ∧
      r.getLsbD s.cfg.bitBusy.val = t.block.busy ∧
      (∀ j, j ≠ s.cfg.bitBusy.val → r.getLsbD j = s.nextDraw.getLsbD j) ∧
      u.targets = s.targets ∧ u.cfg = s.cfg ∧ u.sel = s.sel ∧ u.hosts = s.hosts ∧ u.waits = s.waits)

/-- R99: `RD.CRC` returns the accumulator and changes no state; unwritten, or while a word is in
flight, it faults. -/
def Obligations.ReadCrc : Prop :=
  encode Config.default .rdCrc = 0x10000#20 ∧
  (∀ (s : State) (t : Target) (v : Half), s.target? = some t → t.block.fault = none →
    t.block.refused = none → t.block.busy = false → t.block.crc = some v →
    exec .rdCrc s = .next { s with reply := some v }) ∧
  (∀ (s : State) (t : Target), s.target? = some t → t.block.fault = none →
    t.block.refused = none → t.block.busy = false → t.block.crc = none →
    exec .rdCrc s = .next { s with
      reply := none
      targets := s.targets.set s.sel
        { t with block := { t.block with fault := some (.unwrittenRead .crc) } } }) ∧
  (∀ (s : State) (t : Target), s.target? = some t → t.block.fault = none →
    t.block.refused = none → t.block.busy = true →
    exec .rdCrc s = .next { s with
      reply := none
      targets := s.targets.set s.sel
        { t with block := { t.block with fault := some (.busyAccess .rdCrc) } } })

/-- R100 to R103: a read of an address or data register returns a draw and changes no record; while a
word is in flight it faults. -/
def Obligations.ReadOpenRegisters : Prop :=
  encode Config.default .rdAddrh = 0x20000#20 ∧ encode Config.default .rdAddrl = 0x30000#20 ∧
  encode Config.default .rdDatah = 0x40000#20 ∧ encode Config.default .rdDatal = 0x50000#20 ∧
  (∀ (i : Instr) (s : State) (t : Target), i ∈ [Instr.rdAddrh, .rdAddrl, .rdDatah, .rdDatal] →
    s.target? = some t → t.block.fault = none → t.block.refused = none →
    (t.block.busy = false →
      ∃ u, exec i s = .next u ∧ u.reply = some s.nextDraw ∧ u.targets = s.targets ∧ u.cfg = s.cfg ∧
        u.sel = s.sel ∧ u.hosts = s.hosts ∧ u.waits = s.waits) ∧
    (t.block.busy = true →
      exec i s = .next { s with
        reply := none
        targets := s.targets.set s.sel
          { t with block := { t.block with fault := some (.busyAccess (mnemonicOf i)) } } }))

/-- R90 (D13): the prologue of a transaction word, in its order: a stopped run keeps its record; a reserved
word is refused; any transaction but `RD.CTRL` faults while busy; otherwise the instruction's own
rule. A fault or a refusal changes nothing of the record but its mark. -/
def Obligations.PrologueOrder : Prop :=
  ∀ (s : State) (k : Nat) (w : TxWord) (x : Target), s.targets[k]? = some x →
    ((x.block.fault ≠ none ∨ x.block.refused ≠ none) →
      issue k w s = .next { s with sel := k, reply := none }) ∧
    (x.block.fault = none → x.block.refused = none →
      (∀ r, decode s.cfg w = .refuse r →
        issue k w s = .next { s with
          sel := k
          reply := none
          targets := s.targets.set k { x with block := { x.block with refused := some r } } }) ∧
      (∀ i, decode s.cfg w = .instr i →
        (x.block.busy = true → i ≠ .rdCtrl →
          issue k w s = .next { s with
            sel := k
            reply := none
            targets := s.targets.set k
              { x with block := { x.block with fault := some (.busyAccess (mnemonicOf i)) } } }) ∧
        (x.block.busy = false ∨ i = .rdCtrl →
          issue k w s = exec i { s with sel := k, reply := none })))

/-- R141: the complete list of faults. A transaction sets the mark only as one of the five lines says,
and a commit never sets it. -/
def Obligations.FaultsAreTheListedOnes : Prop :=
  (∀ (i : Instr) (s u : State) (t t' : Target) (f : FaultMark), exec i s = .next u →
    s.target? = some t → u.target? = some t' → t.block.fault = none → t'.block.fault = some f →
    (f = .busyAccess (mnemonicOf i) ∧ i ≠ .rdCtrl ∧ t.block.busy = true) ∨
    (f = .unwrittenOperand .addr ∧ i = .mbXwr ∧
      (t.block.addrMsw = none ∨ t.block.addrLsw = none)) ∨
    (f = .unwrittenOperand .data ∧ i = .mbXwr ∧
      (t.block.dataMsw = none ∨ t.block.dataLsw = none)) ∨
    (∃ ah al, f = .targetAddressInvalid (ah ++ al) ∧ i = .mbXwr ∧ t.block.addrMsw = some ah ∧
      t.block.addrLsw = some al ∧ tmemValid s.cfg (ah ++ al) = false) ∨
    (f = .unwrittenRead .crc ∧ i = .rdCrc ∧ t.block.crc = none)) ∧
  (∀ (c : Config) (b b' : Block), commit c b = .ok b' → b'.fault = b.fault)

/-- The frame of every transaction: what it leaves unchanged when it answers a next state, whatever its
operand and whatever mark it sets. -/
def Obligations.TransactionFrame : Prop :=
  ∀ (i : Instr) (s u : State), exec i s = .next u →
    ∃ t t', s.target? = some t ∧ u.target? = some t' ∧
      u.cfg = s.cfg ∧ u.sel = s.sel ∧ u.hosts = s.hosts ∧
      u.targets.length = s.targets.length ∧
      (∀ j, j ≠ s.sel → u.targets[j]? = s.targets[j]?) ∧
      (∀ x, t'.block.tmem.read x = t.block.tmem.read x) ∧
      (i ≠ .mbCrcrst → t'.block.crc = t.block.crc) ∧
      ((∀ v, i ≠ .wrAddrh v) → t'.block.addrMsw = t.block.addrMsw) ∧
      ((∀ v, i ≠ .wrAddrl v) → t'.block.addrLsw = t.block.addrLsw) ∧
      ((∀ v, i ≠ .wrDatah v) → t'.block.dataMsw = t.block.dataMsw) ∧
      ((∀ v, i ≠ .wrDatal v) → t'.block.dataLsw = t.block.dataLsw) ∧
      (i ≠ .mbXwr → t'.block.busy = t.block.busy ∧ t'.wait = t.wait)

/-- Reads have no side effect (R38): but for a fault mark, a read leaves every record as it was. -/
def Obligations.ReadsHaveNoSideEffect : Prop :=
  ∀ (i : Instr) (s u : State),
    i ∈ [Instr.rdCtrl, .rdCrc, .rdAddrh, .rdAddrl, .rdDatah, .rdDatal] → exec i s = .next u →
    u.targets = s.targets ∨
    ∃ t f, s.target? = some t ∧ t.block.fault = none ∧ u.reply = none ∧
      u.targets = s.targets.set s.sel { t with block := { t.block with fault := some f } }

/-- R23: the marks start as none; once either is set, no later step changes anything of the record. -/
def Obligations.StoppedRunIsKept : Prop :=
  (Block.reset.fault = none ∧ Block.reset.refused = none) ∧
  (∀ (s u : State) (k : Nat) (x : Target), s.targets[k]? = some x →
    (x.block.fault ≠ none ∨ x.block.refused ≠ none) → step s = .next u →
    ∃ x', u.targets[k]? = some x' ∧ x'.block = x.block)

/-! ### The engine -/

/-- R104: the engine's commit, enabled exactly when `busy` is true and no mark is set, in the conditions
R27 gives it (D11, D12, D17, D20): the word is stored at the pointer, no
other byte changes, the accumulator takes its four bytes or stays unwritten, the pointer advances by
4 and does not wrap, the data halves are consumed, `busy` falls. -/
def Obligations.CommitStoresWord : Prop :=
  (∀ b : Block, b.commitEnabled = true ↔ b.busy = true ∧ b.fault = none ∧ b.refused = none) ∧
  ∀ (c : Config) (b : Block) (ah al dh dl : Half), b.addrMsw = some ah → b.addrLsw = some al →
    b.dataMsw = some dh → b.dataLsw = some dl → al.extractLsb' 0 2 = 0#2 →
    tmemValid c (ah ++ al) = true →
    ∃ b', commit c b = .ok b' ∧
      b'.tmem.readWord (ah ++ al) = some (dh ++ dl) ∧
      (∀ x, x < (ah ++ al).toNat ∨ (ah ++ al).toNat + 4 ≤ x → b'.tmem.read x = b.tmem.read x) ∧
      b'.crc = b.crc.map (fun v => crcWord v (dh ++ dl)) ∧
      (ah ++ al = 0xFFFFFFFC#32 → b'.addrMsw = none ∧ b'.addrLsw = none) ∧
      (ah ++ al ≠ 0xFFFFFFFC#32 →
        b'.addrMsw = some ((ah ++ al + 4#32).extractLsb' 16 16) ∧
        b'.addrLsw = some ((ah ++ al + 4#32).extractLsb' 0 16)) ∧
      b'.dataMsw = none ∧ b'.dataLsw = none ∧ b'.busy = false ∧
      b'.fault = b.fault ∧ b'.refused = b.refused

/-- The engine acts exactly when a target is busy without a mark and its wait is over (R8, R104; the
wait and the order among several targets are the model's, logs 4 and 5); then
the step is that commit and nothing else but the passing of a step for every target. -/
def Obligations.EngineStep : Prop :=
  (∀ (s : State) (k : Nat), s.due = some k → ∃ x, s.targets[k]? = some x ∧ x.block.busy = true ∧
    x.block.fault = none ∧ x.block.refused = none ∧ x.wait = 0) ∧
  (∀ (s : State) (k : Nat) (x : Target), s.targets[k]? = some x → x.block.busy = true →
    x.block.fault = none → x.block.refused = none → x.wait = 0 → ∃ j, j ≤ k ∧ s.due = some j) ∧
  (∀ (s : State) (k : Nat) (x : Target), s.Inv → s.due = some k → s.targets[k]? = some x →
    ∃ b, commit s.cfg x.block = .ok b ∧
      step s = .next { s with targets := (s.targets.map Target.tick).set k ⟨b, 0⟩ })

/-- In states that meet the invariant a step never ends in a fault: the commit cannot fail (R104, R27). -/
def Obligations.EngineNeverFails : Prop :=
  ∀ (s : State) (f : Fault), s.Inv → step s ≠ .fault f

/-- A pending commit happens after finitely many steps (D21, R41; the wait is the model's free value,
log 4, and that among several due engines the first in the list commits is the model's choice, log 5): a
word is accepted with the wait the run gives it; a step that does not commit a
target's word brings its wait down by one, or marks the target; with the wait over, an engine no
later in the list than this one commits at once. -/
def Obligations.WaitRunsDown : Prop :=
  (∀ (s u : State) (t t' : Target), exec .mbXwr s = .next u → s.target? = some t →
    u.target? = some t' → t.block.busy = false → t'.block.busy = true → t'.wait = s.nextWait) ∧
  (∀ (s u : State) (k : Nat) (x : Target), s.targets[k]? = some x → x.block.busy = true →
    x.block.fault = none → x.block.refused = none → step s = .next u →
    (0 < x.wait → ∃ x', u.targets[k]? = some x' ∧
      ((x'.block = x.block ∧ x'.wait = x.wait - 1) ∨ x'.block.fault ≠ none ∨ x'.block.refused ≠ none)) ∧
    (x.wait = 0 → ∃ j, j ≤ k ∧ s.due = some j))

/-! ### Invariants and whole-machine rules -/

/-- Every step keeps the invariant of R27. -/
def Obligations.StepKeepsInvariant : Prop :=
  ∀ s u : State, s.Inv → step s = .next u → u.Inv

/-- The initial state meets the invariant, under every well-formed choice of the parameters. -/
def Obligations.ResetMeetsInvariant : Prop :=
  State.reset.Inv ∧ ∀ c : Config, c.wf = true → (State.resetWith c).Inv

/-- The parameters are fixed for a run (R161). -/
def Obligations.ParametersAreFixed : Prop :=
  ∀ s u : State, step s = .next u → u.cfg = s.cfg ∧ u.targets.length = s.targets.length

/-- Targets never affect each other (R24, R42 e): a step changes the record of no target but the one it
acts on, which is the one whose engine is due, or else the one the next operation of the moving agent is
addressed to. -/
def Obligations.TargetsAreIndependent : Prop :=
  ∀ (s u : State) (j : Nat) (x : Target), step s = .next u → s.targets[j]? = some x →
    s.due ≠ some j →
    (∀ h n op rest, s.due = none → s.mover = some (h, n) → h.script = op :: rest → op.target ≠ j) →
    ∃ x', u.targets[j]? = some x' ∧ x'.block = x.block

/-- Only the engine's commit writes target memory (R22): in any step, for every target and every
address, a byte reads as before unless that target's engine is the due one and the address is in the
four bytes at its pointer. -/
def Obligations.OnlyCommitStores : Prop :=
  ∀ (s u : State) (k : Nat) (x x' : Target) (a : Nat), step s = .next u →
    s.targets[k]? = some x → u.targets[k]? = some x' →
    (s.due = some k →
      ∀ ah al, x.block.addrMsw = some ah → x.block.addrLsw = some al →
        a < (ah ++ al).toNat ∨ (ah ++ al).toNat + 4 ≤ a →
        x'.block.tmem.read a = x.block.tmem.read a) ∧
    (s.due ≠ some k → x'.block.tmem.read a = x.block.tmem.read a)

/-- R18: `busy` is set by `MB.XWR` and cleared by `ENG.COMMIT`, and no step writes it otherwise. -/
def Obligations.BusyRisesAndFalls : Prop :=
  ∀ (s u : State) (k : Nat) (x x' : Target), step s = .next u →
    s.targets[k]? = some x → u.targets[k]? = some x' →
    (x.block.busy = false → x'.block.busy = true →
      ∃ h n w, s.mover = some (h, n) ∧ h.request s.cfg = some (k, w) ∧
        decode s.cfg w = .instr .mbXwr) ∧
    (x.block.busy = true → x'.block.busy = false → s.due = some k)

/-- Each address half, and so the pointer, changes only by its own write, after which it holds the value
written, and by the commit (R13, R14, R19). -/
def Obligations.PointerMovesOnlyBy : Prop :=
  ∀ (s u : State) (k : Nat) (x x' : Target), step s = .next u →
    s.targets[k]? = some x → u.targets[k]? = some x' →
    (x'.block.addrMsw ≠ x.block.addrMsw → s.due = some k ∨
      ∃ h n w v, s.mover = some (h, n) ∧ h.request s.cfg = some (k, w) ∧
        decode s.cfg w = .instr (.wrAddrh v) ∧ x'.block.addrMsw = some v) ∧
    (x'.block.addrLsw ≠ x.block.addrLsw → s.due = some k ∨
      ∃ h n w v, s.mover = some (h, n) ∧ h.request s.cfg = some (k, w) ∧
        decode s.cfg w = .instr (.wrAddrl v) ∧ x'.block.addrLsw = some v) ∧
    (x'.block.pointer? ≠ x.block.pointer? → s.due = some k ∨
      ∃ h n w v, s.mover = some (h, n) ∧ h.request s.cfg = some (k, w) ∧
        (decode s.cfg w = .instr (.wrAddrh v) ∨ decode s.cfg w = .instr (.wrAddrl v)))

/-- Each data half changes only by its own write, after which it holds the value written, and by the
commit, which leaves it unwritten (R15, R16). -/
def Obligations.DataHalvesChangeOnlyBy : Prop :=
  ∀ (s u : State) (k : Nat) (x x' : Target), step s = .next u →
    s.targets[k]? = some x → u.targets[k]? = some x' →
    (x'.block.dataMsw ≠ x.block.dataMsw → (s.due = some k ∧ x'.block.dataMsw = none) ∨
      ∃ h n w v, s.mover = some (h, n) ∧ h.request s.cfg = some (k, w) ∧
        decode s.cfg w = .instr (.wrDatah v) ∧ x'.block.dataMsw = some v) ∧
    (x'.block.dataLsw ≠ x.block.dataLsw → (s.due = some k ∧ x'.block.dataLsw = none) ∨
      ∃ h n w v, s.mover = some (h, n) ∧ h.request s.cfg = some (k, w) ∧
        decode s.cfg w = .instr (.wrDatal v) ∧ x'.block.dataLsw = some v)

/-- The accumulator changes only by `MB.CRCRST` and by the commit (R12, R20). -/
def Obligations.AccumulatorChangesOnlyBy : Prop :=
  ∀ (s u : State) (k : Nat) (x x' : Target), step s = .next u →
    s.targets[k]? = some x → u.targets[k]? = some x' → x'.block.crc ≠ x.block.crc →
    s.due = some k ∨
    ∃ h n w, s.mover = some (h, n) ∧ h.request s.cfg = some (k, w) ∧
      decode s.cfg w = .instr .mbCrcrst

/-! ### The step and reset -/

/-- A step runs the decoded instruction (R8, R90; the scripts, the turns and the engine's waits are the
model's, logs 4 and 12): when no engine is due and the next word of the agent whose turn it is decodes to
`i`, the step is `exec i` on the addressed target, a step having passed for every target, and that agent
has issued the word. -/
def Obligations.StepRunsDecoded : Prop :=
  ∀ (s : State) (k n : Nat) (w : TxWord) (rest : List HostOp)
    (res : Option (HostResult TransferError)) (i : Instr), s.due = none →
    s.mover = some (⟨.tx k w :: rest, res⟩, n) → decode s.cfg w = .instr i →
    step s = mapNext (fun u => { u with hosts := s.hosts.set n ⟨rest, res⟩ })
      (exec i (s.tick.takeTurn.select k))

/-- The transactions of several host agents interleave as atomic steps, in any order (R8, R152; the
turns are the model's form of the order, log 12): a step moves one agent at most, only when no engine is
due, and every agent that has something to issue moves next under some turn. -/
def Obligations.HostAgentsInterleave : Prop :=
  (∀ s u : State, step s = .next u → u.hosts = s.hosts ∨
    ∃ h n, s.due = none ∧ s.mover = some (h, n) ∧ s.hosts[n]? = some h ∧
      ∃ h', u.hosts = s.hosts.set n h') ∧
  (∀ (s : State) (n : Nat) (h : HostAgent), s.hosts[n]? = some h → h.script ≠ [] →
    ∃ turn, State.mover { s with turns := turn :: s.turns } = some (h, n))

/-- A transaction to a target the machine does not have is refused by name: the model's choice, log 11
(the spec leaves the host's bus out, R3). -/
def Obligations.MissingTargetIsRefused : Prop :=
  (∀ (s : State) (k : Nat) (w : TxWord), s.targets.length ≤ k →
    issue k w s = .refused (.noSuchTarget k)) ∧
  (∀ (s : State) (i : Instr), s.targets.length ≤ s.sel →
    exec i s = .refused (.noSuchTarget s.sel))

/-- A placed word is what the very next step runs, from any state: the model's own way of loading a
transaction, log 18. -/
def Obligations.PlacedWordRunsNext : Prop :=
  ∀ (s : State) (w : TxWord) (i : Instr), s.hosts ≠ [] → decode s.cfg w = .instr i →
    step (s.placeWord w) = mapNext (fun u => { u with hosts := s.hosts })
      (exec i ((s.placeWord w).tick.takeTurn.select s.sel))

/-- R25: the values after reset, for every target (the spec's decision D19). -/
def Obligations.ResetValues : Prop :=
  ∀ (c : Config) (k : Nat), k < c.nTargets →
    ∃ x, (State.resetWith c).targets[k]? = some x ∧ x.block.busy = false ∧ x.block.crc = none ∧
      x.block.addrMsw = none ∧ x.block.addrLsw = none ∧ x.block.dataMsw = none ∧
      x.block.dataLsw = none ∧ (∀ a : Word, x.block.tmem.readWord a = none) ∧
      x.block.fault = none ∧ x.block.refused = none

/-- What is legal directly after reset (R163): `MB.XWR` and `RD.CRC` fault, every other well-formed
transaction completes without a mark, and no engine is due. -/
def Obligations.LegalAfterReset : Prop :=
  State.reset.due = none ∧
  (∃ u x, exec .mbXwr State.reset = .next u ∧ u.target? = some x ∧
    x.block = { Block.reset with fault := some (.unwrittenOperand .addr) }) ∧
  (∃ u x, exec .rdCrc State.reset = .next u ∧ u.target? = some x ∧
    x.block = { Block.reset with fault := some (.unwrittenRead .crc) }) ∧
  (∀ i : Instr, i.wf = true → i ≠ .mbXwr → i ≠ .rdCrc →
    ∃ u, exec i State.reset = .next u ∧ u.unmarked = true)

/-! ### The host procedures -/

/-- R121: `words_of`, with the padding and the packing of the four bytes. -/
def Obligations.WordsOfSegment : Prop :=
  ∀ d : List Byte, (wordsOf d).length = (d.length + 3) / 4 ∧
    ∀ i, i < (d.length + 3) / 4 → (wordsOf d)[i]? = some
      ((d.getD (4 * i) 0#8).setWidth 32 ||| (d.getD (4 * i + 1) 0#8).setWidth 32 <<< 8 |||
        (d.getD (4 * i + 2) 0#8).setWidth 32 <<< 16 ||| (d.getD (4 * i + 3) 0#8).setWidth 32 <<< 24)

/-- The host's local running CRC is the checksum of the words sent, each most significant byte first,
from `CRC_INIT` (R122). -/
def Obligations.LocalCrcOverWords : Prop :=
  ∀ (c : Config) (ws : List Word), localCrc c ws = crc16 c.crcInit (ws.flatMap bytesOfWord)

/-- `POLL` (R120): it issues `RD.CTRL`, and it ends exactly when the value read has the busy bit clear,
whatever the other bits. -/
def Obligations.PollWaitsForBusyClear : Prop :=
  ∀ (c : Config) (k : Nat) (rest : List HostOp) (res : Option (HostResult TransferError)) (r : Half),
    HostAgent.request c ⟨.poll k :: rest, res⟩ = some (k, encode c .rdCtrl) ∧
    HostAgent.respond c ⟨.poll k :: rest, res⟩ (some r) =
      if r.getLsbD c.bitBusy.val = true then ⟨.poll k :: rest, res⟩ else ⟨rest, res⟩

/-- The comparison that ends a `LOADSEG` (R124), with `more` operations of the enclosing procedure to
come: all 16 bits, both values in the error, and after a mismatch no further transaction of that
procedure. That the agent goes on behind the procedure is the model's choice, log 25. -/
def Obligations.ComparisonEndsLoad : Prop :=
  ∀ (c : Config) (k more : Nat) (rest : List HostOp) (res : Option (HostResult TransferError))
    (l v : Half),
    HostAgent.request c ⟨.check k l more :: rest, res⟩ = some (k, encode c .rdCrc) ∧
    (v = l → HostAgent.respond c ⟨.check k l more :: rest, res⟩ (some v) =
      ⟨rest, if more = 0 then some .ok else res⟩) ∧
    (v ≠ l → HostAgent.respond c ⟨.check k l more :: rest, res⟩ (some v) =
      ⟨rest.drop more, some (.err (.crcMismatch l v))⟩)

/-- A misaligned base is refused before the first transaction, and nothing more of the enclosing
procedure is issued (R36, R123, R127), whatever stands after it in the script. That the agent then holds
no result and goes on behind the procedure is the model's choice, log 21. -/
def Obligations.MisalignedBaseIsRefused : Prop :=
  (∀ (s : State) (k n more : Nat) (x : Target) (base : Word) (data : List Byte) (rest : List HostOp)
    (res : Option (HostResult TransferError)), s.due = none → base.extractLsb' 0 2 ≠ 0#2 →
    s.mover = some (⟨loadSegWithin s.cfg k base data more ++ rest, res⟩, n) →
    s.targets[k]? = some x → x.block.fault = none → x.block.refused = none →
    ∃ u x', step s = .next u ∧ u.hosts = s.hosts.set n ⟨rest.drop more, none⟩ ∧
      u.targets[k]? = some x' ∧
      x'.block = { x.block with refused := some (.misalignedAddress (base.extractLsb' 0 16)) }) ∧
  (∀ (s : State) (k n : Nat) (x : Target) (dbase ibase : Word) (dram iram : List Byte)
    (rest : List HostOp) (res : Option (HostResult TransferError)), s.due = none →
    dbase.extractLsb' 0 2 ≠ 0#2 →
    s.mover = some (⟨loadFw s.cfg k dbase dram ibase iram ++ rest, res⟩, n) →
    s.targets[k]? = some x → x.block.fault = none → x.block.refused = none →
    ∃ u x', step s = .next u ∧ u.hosts = s.hosts.set n ⟨rest, none⟩ ∧ u.targets[k]? = some x' ∧
      x'.block = { x.block with refused := some (.misalignedAddress (dbase.extractLsb' 0 16)) })

/-- `LOADSEG` and `LOADFW` against any stand-in for the hardware whose polls end (R129, R127): the
transactions issued do not depend on the CRC value returned, the result is `Ok` exactly when that
value is the local one, the second segment is attempted only then, and a `LOADFW` returns `Ok` only when
both segments do. A misaligned base ends either without a result and without a transaction of its
segment or a later one (R123; the missing result is the model's choice, log 21). -/
def Obligations.LoadAgainstStandIn : Prop :=
  (∀ (c : Config) (k : Nat) (f : TxWord → Half) (base : Word) (data : List Byte) (n : Nat),
    (f (encode c .rdCtrl)).getLsbD c.bitBusy.val = false →
    (loadSegTransactions c k base data).length ≤ n →
    HostAgent.runAgainst c (standIn f) n (HostAgent.start (loadSeg c k base data)) () =
      if base.extractLsb' 0 2 = 0#2 then
        (loadSegTransactions c k base data,
          ⟨[], some (if f (encode c .rdCrc) = localCrc c (wordsOf data) then .ok
            else .err (.crcMismatch (localCrc c (wordsOf data)) (f (encode c .rdCrc))))⟩, ())
      else ([], ⟨[], none⟩, ())) ∧
  (∀ (c : Config) (k : Nat) (f : TxWord → Half) (dbase ibase : Word) (dram iram : List Byte) (n : Nat),
    (f (encode c .rdCtrl)).getLsbD c.bitBusy.val = false →
    (loadSegTransactions c k dbase dram).length + (loadSegTransactions c k ibase iram).length ≤ n →
    (dbase.extractLsb' 0 2 ≠ 0#2 →
      HostAgent.runAgainst c (standIn f) n (HostAgent.start (loadFw c k dbase dram ibase iram)) () =
        ([], ⟨[], none⟩, ())) ∧
    (dbase.extractLsb' 0 2 = 0#2 → f (encode c .rdCrc) ≠ localCrc c (wordsOf dram) →
      HostAgent.runAgainst c (standIn f) n (HostAgent.start (loadFw c k dbase dram ibase iram)) () =
        (loadSegTransactions c k dbase dram,
          ⟨[], some (.err (.crcMismatch (localCrc c (wordsOf dram)) (f (encode c .rdCrc))))⟩, ())) ∧
    (dbase.extractLsb' 0 2 = 0#2 → f (encode c .rdCrc) = localCrc c (wordsOf dram) →
      HostAgent.runAgainst c (standIn f) n (HostAgent.start (loadFw c k dbase dram ibase iram)) () =
        if ibase.extractLsb' 0 2 = 0#2 then
          (loadSegTransactions c k dbase dram ++ loadSegTransactions c k ibase iram,
            ⟨[], some (if f (encode c .rdCrc) = localCrc c (wordsOf iram) then .ok
              else .err (.crcMismatch (localCrc c (wordsOf iram)) (f (encode c .rdCrc))))⟩, ())
        else (loadSegTransactions c k dbase dram, ⟨[], none⟩, ())))

/-- `LOADSEG` is correct in the model (R125, R106, R128; the scripts, the turns and the engine's waits
are the model's, logs 4 and 12), by itself or with `more` operations of an enclosing `LOADFW` after it,
beside any traffic of other host agents on other targets. In every run, whatever the waits, the turns
and the draws, when the agent has come to what follows the load, it has compared equal and the record is
as `SegmentStored` says. Such a run there is under some turns, and under all turns when no other agent
has anything to issue; every other target at rest then keeps its record. -/
def Obligations.LoadSegIsCorrect : Prop :=
  ∀ (s : State) (k n more : Nat) (x : Target) (base : Word) (data : List Byte) (rest : List HostOp)
    (res : Option (HostResult TransferError)),
    s.Inv → s.cfg.wf = true → s.targets[k]? = some x →
    x.block.fault = none → x.block.refused = none → x.block.busy = false →
    s.hosts[n]? = some ⟨loadSegWithin s.cfg k base data more ++ rest, res⟩ →
    (∀ j h op, j ≠ n → s.hosts[j]? = some h → op ∈ h.script → op.target ≠ k) →
    base.extractLsb' 0 2 = 0#2 → base.toNat + 4 * (wordsOf data).length ≤ 2 ^ 32 →
    (∀ i, i < (wordsOf data).length → tmemValid s.cfg (base + BitVec.ofNat 32 (4 * i)) = true) →
    (∀ m u h, runSteps m s = .next u → u.hosts[n]? = some h → h.script = rest →
      h.result = (if more = 0 then some .ok else res) ∧
      ∃ x', u.targets[k]? = some x' ∧ SegmentStored s.cfg base data x.block x'.block) ∧
    (∃ turns m u, runSteps m { s with turns := turns } = .next u ∧
      u.hosts[n]? = some ⟨rest, if more = 0 then some .ok else res⟩) ∧
    ((∀ j h, j ≠ n → s.hosts[j]? = some h → h.script = []) →
      ∃ m u, runSteps m s = .next u ∧
        u.hosts = s.hosts.set n ⟨rest, if more = 0 then some .ok else res⟩ ∧
        ∀ j y, j ≠ k → s.targets[j]? = some y → y.block.busy = false →
          ∃ y', u.targets[j]? = some y' ∧ y'.block = y.block)

/-- Check before touch (R126, R164): a blob that fails its check leads to no transaction at all, and one
that passes to the load. -/
def Obligations.CheckBeforeTouch : Prop :=
  ∀ (c : Config) (k : Nat) (blob : List Byte) (dbase ibase : Word) (dram iram : List Byte),
    (∀ e, blobCrcOk c.blobSeed blob = .err e →
      bootAttempt c k blob dbase dram ibase iram = (.err e, [])) ∧
    (blobCrcOk c.blobSeed blob = .ok →
      bootAttempt c k blob dbase dram ibase iram = (.ok, loadFw c k dbase dram ibase iram))
end

