-- ==== Sys2Proof/Laws/Codec.lean ====
section
/-! SUPPORT. Small laws of the codec and of the chunking of a segment. -/

namespace Sys2Proof.Machine

@[simp] theorem crc16_nil (s : Half) : crc16 s [] = s := rfl

@[simp] theorem crc16_cons (s : Half) (b : Byte) (d : List Byte) :
    crc16 s (b :: d) = crc16 (crcStep s b) d := rfl

/-- The byte step written out, most significant bit first (R71). -/
theorem crcStep_eq (c : Half) (b : Byte) : crcStep c b =
    crcBit (crcBit (crcBit (crcBit (crcBit (crcBit (crcBit (crcBit c (b.getLsbD 7)) (b.getLsbD 6))
      (b.getLsbD 5)) (b.getLsbD 4)) (b.getLsbD 3)) (b.getLsbD 2)) (b.getLsbD 1)) (b.getLsbD 0) := rfl

/-- The division step is linear in the pair of accumulator and bit (R80's ground). -/
theorem crcBit_xor (c d : Half) (x y : Bool) :
    crcBit (c ^^^ d) (x ^^ y) = crcBit c x ^^^ crcBit d y := by
  have hs : (c ^^^ d) <<< 1 = (c <<< 1) ^^^ (d <<< 1) := by
    apply BitVec.eq_of_getLsbD_eq
    intro i hi
    simp only [BitVec.getLsbD_shiftLeft, BitVec.getLsbD_xor]
    cases decide (i < 1) <;> simp [hi]
  unfold crcBit
  rw [hs, BitVec.getLsbD_xor]
  generalize c <<< 1 = c', d <<< 1 = d'
  cases c.getLsbD 15 <;> cases d.getLsbD 15 <;> cases x <;> cases y
  all_goals
    simp only [Bool.xor_false, Bool.xor_true, Bool.not_true, Bool.not_false, Bool.false_eq_true,
      if_true, if_false]
  all_goals
    apply BitVec.eq_of_getLsbD_eq
    intro i _
    simp only [BitVec.getLsbD_xor]
    cases c'.getLsbD i <;> cases d'.getLsbD i <;> cases crcPoly.getLsbD i <;> rfl

/-- The byte step is linear. -/
theorem crcStep_xor (c d : Half) (a b : Byte) :
    crcStep (c ^^^ d) (a ^^^ b) = crcStep c a ^^^ crcStep d b := by
  simp only [crcStep_eq, BitVec.getLsbD_xor, crcBit_xor]

@[simp] theorem crcStep_zero : crcStep 0#16 0#8 = 0#16 := by decide +kernel

@[simp] theorem wordsOf_nil : wordsOf [] = [] := rfl

@[simp] theorem wordsOf_cons4 (b0 b1 b2 b3 : Byte) (rest : List Byte) :
    wordsOf (b0 :: b1 :: b2 :: b3 :: rest) = packWord b0 b1 b2 b3 :: wordsOf rest := by
  rw [wordsOf]

@[simp] theorem localCrc_nil (c : Config) : localCrc c [] = c.crcInit := rfl

@[simp] theorem bytesOfWord_length (w : Word) : (bytesOfWord w).length = 4 := rfl

/-- The printed table agrees with the polynomial on every entry (R72, N1). -/
theorem crcTable_computed :
    (List.range 256).map (fun i => crcTableEntry (BitVec.ofNat 8 i)) = crcTable := by
  decide +kernel

end Sys2Proof.Machine
end

