-- ==== Sys2Proof/Laws/Decode.lean ====
section
/-! SUPPORT. The three fields of a transaction word put together and taken apart (R50), and the
register map under well-formed parameters (R51). -/

namespace Sys2Proof

@[simp] theorem TxWord.make_isWrite (w : BitVec 1) (idx : BitVec 3) (data : Half) :
    (TxWord.make w idx data).isWrite = w.getLsbD 0 := by
  unfold TxWord.make TxWord.isWrite
  rw [BitVec.getLsbD_append, BitVec.getLsbD_append]
  rfl

@[simp] theorem TxWord.make_idx (w : BitVec 1) (idx : BitVec 3) (data : Half) :
    (TxWord.make w idx data).idx = idx := by
  apply BitVec.eq_of_getLsbD_eq
  intro i hi
  simp only [TxWord.make, TxWord.idx, BitVec.getLsbD_extractLsb', BitVec.getLsbD_append]
  simp [hi]

@[simp] theorem TxWord.make_data (w : BitVec 1) (idx : BitVec 3) (data : Half) :
    (TxWord.make w idx data).data = data := by
  apply BitVec.eq_of_getLsbD_eq
  intro i hi
  simp only [TxWord.make, TxWord.data, BitVec.getLsbD_extractLsb', BitVec.getLsbD_append]
  simp [hi]

/-- A transaction word is its three fields. -/
theorem TxWord.make_fields (t : TxWord) :
    TxWord.make (BitVec.ofBool t.isWrite) t.idx t.data = t := by
  apply BitVec.eq_of_getLsbD_eq
  intro i hi
  simp only [TxWord.make, TxWord.isWrite, TxWord.idx, TxWord.data, BitVec.getLsbD_append,
    BitVec.getLsbD_extractLsb', BitVec.getLsbD_ofBool]
  split
  · simp_all
  · split
    · have : 16 + (i - 16) = i := by omega
      simp_all
    · have : i = 19 := by omega
      subst this
      simp

/-- Under well-formed parameters the index of a register selects it, and it alone (R28). -/
theorem Config.regOf_idxOf {c : Config} (h : c.wf = true) (r : Reg) : c.regOf (c.idxOf r) = some r := by
  simp only [Config.wf, Config.indices, Bool.and_eq_true, decide_eq_true_eq, List.nodup_cons,
    List.mem_cons, not_or] at h
  cases r <;> simp [Config.regOf, Config.idxOf] <;> grind

/-- The register an index selects has that index. -/
theorem Config.idxOf_regOf {c : Config} {idx : BitVec 3} {r : Reg} (h : c.regOf idx = some r) :
    c.idxOf r = idx := by
  unfold Config.regOf at h
  repeat' split at h
  all_goals cases h
  all_goals simp_all [Config.idxOf]

end Sys2Proof
end

