-- ==== Sys2Proof/Laws/Memory.lean ====
section
/-! SUPPORT. What target memory does: a read after a write, other addresses, and the canonical form,
which every memory operation keeps. -/

namespace Sys2Proof.Machine

@[simp] theorem Memory.read_nil (a : Nat) : Memory.read [] a = none := rfl

/-- A read after a write at any two addresses. -/
theorem Memory.read_write (m : Memory) (a x : Nat) (v : Byte) :
    (m.write a v).read x = if x = a then some v else m.read x := by
  induction m with
  | nil => simp [Memory.write, Memory.read, eq_comm]
  | cons c rest ih =>
    simp only [Memory.write]
    split
    · simp only [Memory.read, eq_comm]
    · split
      · next h => subst h; simp only [Memory.read]; split <;> simp_all [eq_comm]
      · next h => simp only [Memory.read, ih]; split <;> split <;> simp_all

@[simp] theorem Memory.read_write_same (m : Memory) (a : Nat) (v : Byte) :
    (m.write a v).read a = some v := by
  simp [Memory.read_write]

theorem Memory.read_write_other (m : Memory) {a x : Nat} (v : Byte) (h : x ≠ a) :
    (m.write a v).read x = m.read x := by
  simp [Memory.read_write, h]

/-- What a cell of memory after a write is: the written one, or one of before. -/
theorem Memory.mem_write {m : Memory} {a : Nat} {v : Byte} {c : Host.Cell} (h : c ∈ m.write a v) :
    c = (a, v) ∨ c ∈ m := by
  induction m with
  | nil => simpa [Memory.write] using h
  | cons d rest ih =>
    simp only [Memory.write] at h
    split at h
    · simpa [or_assoc] using h
    · split at h
      · simp only [List.mem_cons] at h ⊢; tauto
      · simp only [List.mem_cons] at h ⊢
        rcases h with h | h
        · exact .inr (.inl h)
        · rcases ih h with h | h
          · exact .inl h
          · exact .inr (.inr h)

/-- A write keeps the canonical form. -/
theorem Memory.write_wf {m : Memory} (h : m.wf) {a : Nat} (ha : a < 2 ^ 32) (v : Byte) :
    (m.write a v).wf := by
  refine ⟨?_, fun c hc => ?_⟩
  · obtain ⟨hp, -⟩ := h
    induction m with
    | nil => simp [Memory.write]
    | cons d rest ih =>
      obtain ⟨hd, hr⟩ := List.pairwise_cons.mp hp
      simp only [Memory.write]
      split
      · next hlt =>
        refine List.pairwise_cons.mpr ⟨fun e he => ?_, hp⟩
        rcases List.mem_cons.mp he with rfl | he
        · exact hlt
        · exact Nat.lt_trans hlt (hd e he)
      · split
        · next heq => subst heq; exact List.pairwise_cons.mpr ⟨hd, hr⟩
        · next hlt hne =>
          refine List.pairwise_cons.mpr ⟨fun e he => ?_, ih hr⟩
          rcases Memory.mem_write he with rfl | he
          · simp only; omega
          · exact hd e he
  · rcases Memory.mem_write hc with rfl | hc
    · exact ha
    · exact h.2 c hc

/-- A word-aligned address leaves room for its four bytes. -/
theorem wordAligned_bound {a : Word} (h : wordAligned a = true) :
    a.toNat % 4 = 0 ∧ a.toNat + 3 < 2 ^ 32 := by
  have h0 : a.toNat % 4 = 0 := by
    simp only [wordAligned, beq_iff_eq] at h
    have := congrArg BitVec.toNat h
    simpa using this
  have := a.isLt
  omega

/-- Storing a word at an aligned address keeps the canonical form (R32). -/
theorem Memory.writeWord_wf {m : Memory} (h : m.wf) {a : Word} (ha : wordAligned a = true) (w : Word) :
    (m.writeWord a w).wf := by
  have := (wordAligned_bound ha).2
  unfold Memory.writeWord
  exact Memory.write_wf (Memory.write_wf (Memory.write_wf (Memory.write_wf h (by omega) _) (by omega) _)
    (by omega) _) (by omega) _

/-- `TMemWrite` changes nothing outside the four bytes of its word (R32). -/
theorem Memory.read_writeWord_other (m : Memory) {a : Word} (w : Word) {x : Nat}
    (h : x < a.toNat ∨ a.toNat + 4 ≤ x) : (m.writeWord a w).read x = m.read x := by
  unfold Memory.writeWord
  rw [Memory.read_write_other _ _ (by omega), Memory.read_write_other _ _ (by omega),
    Memory.read_write_other _ _ (by omega), Memory.read_write_other _ _ (by omega)]

/-- Inside the four bytes something is written. -/
theorem Memory.read_writeWord_inside (m : Memory) {a : Word} (w : Word) {x : Nat}
    (h : a.toNat ≤ x ∧ x < a.toNat + 4) : ((m.writeWord a w).read x).isSome = true := by
  unfold Memory.writeWord
  have : x = a.toNat + 3 ∨ x = a.toNat + 2 ∨ x = a.toNat + 1 ∨ x = a.toNat := by omega
  rcases this with h | h | h | h <;> simp [Memory.read_write, h]

/-- The four bytes of a word put together again. -/
theorem word_of_bytes (w : Word) :
    w.extractLsb' 24 8 ++ w.extractLsb' 16 8 ++ w.extractLsb' 8 8 ++ w.extractLsb' 0 8 = w := by
  apply BitVec.eq_of_getLsbD_eq
  intro i hi
  simp only [BitVec.getLsbD_append, BitVec.getLsbD_extractLsb']
  repeat' split
  all_goals
    have small : ∀ j, j < 8 → decide (j < 8) = true := fun _ h => decide_eq_true h
    rw [small _ (by omega), Bool.true_and]
    congr 1
    omega

/-- Reading back the word just stored (R32). -/
theorem Memory.readWord_writeWord_same (m : Memory) (a w : Word) :
    (m.writeWord a w).readWord a = some w := by
  simp [Memory.readWord, Memory.writeWord, Memory.read_write, word_of_bytes]

/-- `TMemWrite(a, w)` changes no other word (R32). -/
theorem Memory.readWord_writeWord_other (m : Memory) {a x : Word} (w : Word)
    (ha : wordAligned a = true) (hx : wordAligned x = true) (h : x ≠ a) :
    (m.writeWord a w).readWord x = m.readWord x := by
  have h1 := wordAligned_bound ha
  have h2 := wordAligned_bound hx
  have h3 : x.toNat ≠ a.toNat := fun e => h (BitVec.eq_of_toNat_eq e)
  unfold Memory.readWord
  rw [Memory.read_writeWord_other _ _ (by omega), Memory.read_writeWord_other _ _ (by omega),
    Memory.read_writeWord_other _ _ (by omega), Memory.read_writeWord_other _ _ (by omega)]

/-- Reset memory is in the canonical form. -/
theorem Memory.nil_wf : Memory.wf [] := ⟨List.Pairwise.nil, fun _ h => nomatch h⟩

end Sys2Proof.Machine
end

