-- ==== Sys2Proof/Laws/State.lean ====
section
/-! SUPPORT. One lemma per field and update of the state, so that no later proof unfolds a record
update. -/

namespace Sys2Proof.Machine

/-! ### Registers -/

@[simp] theorem Block.get_set (b : Block) (r : Reg) (v : Option Half) (h : r ≠ .ctrl) :
    (b.set r v).get r = v := by
  cases r <;> first | rfl | exact absurd rfl h

@[simp] theorem Block.get_set_ne (b : Block) (r q : Reg) (v : Option Half) (h : q ≠ r) :
    (b.set r v).get q = b.get q := by
  cases r <;> cases q <;> first | rfl | exact absurd rfl h

@[simp] theorem Block.set_ctrl (b : Block) (v : Option Half) : b.set .ctrl v = b := rfl
@[simp] theorem Block.get_ctrl (b : Block) : b.get .ctrl = none := rfl
@[simp] theorem Block.get_crc (b : Block) : b.get .crc = b.crc := rfl
@[simp] theorem Block.get_addrMsw (b : Block) : b.get .addrMsw = b.addrMsw := rfl
@[simp] theorem Block.get_addrLsw (b : Block) : b.get .addrLsw = b.addrLsw := rfl
@[simp] theorem Block.get_dataMsw (b : Block) : b.get .dataMsw = b.dataMsw := rfl
@[simp] theorem Block.get_dataLsw (b : Block) : b.get .dataLsw = b.dataLsw := rfl

@[simp] theorem Block.set_busy (b : Block) (r : Reg) (v : Option Half) : (b.set r v).busy = b.busy := by
  cases r <;> rfl

@[simp] theorem Block.set_tmem (b : Block) (r : Reg) (v : Option Half) : (b.set r v).tmem = b.tmem := by
  cases r <;> rfl

@[simp] theorem Block.set_fault (b : Block) (r : Reg) (v : Option Half) :
    (b.set r v).fault = b.fault := by
  cases r <;> rfl

@[simp] theorem Block.set_refused (b : Block) (r : Reg) (v : Option Half) :
    (b.set r v).refused = b.refused := by
  cases r <;> rfl

/-- A record is stopped exactly when one of the two marks is set (R23). -/
theorem Block.stopped_eq_false_iff (b : Block) :
    b.stopped = false ↔ b.fault = none ∧ b.refused = none := by
  simp [Block.stopped]

@[simp] theorem Block.reset_stopped : Block.reset.stopped = false := rfl

/-! ### The committed record (R104), field by field -/

@[simp] theorem Block.committed_crc (b : Block) (a d : Word) :
    (b.committed a d).crc = b.crc.map (fun c => crcWord c d) := rfl
@[simp] theorem Block.committed_addrMsw (b : Block) (a d : Word) :
    (b.committed a d).addrMsw = (nextPointer a).map upperHalf := rfl
@[simp] theorem Block.committed_addrLsw (b : Block) (a d : Word) :
    (b.committed a d).addrLsw = (nextPointer a).map lowerHalf := rfl
@[simp] theorem Block.committed_dataMsw (b : Block) (a d : Word) : (b.committed a d).dataMsw = none := rfl
@[simp] theorem Block.committed_dataLsw (b : Block) (a d : Word) : (b.committed a d).dataLsw = none := rfl
@[simp] theorem Block.committed_busy (b : Block) (a d : Word) : (b.committed a d).busy = false := rfl
@[simp] theorem Block.committed_tmem (b : Block) (a d : Word) :
    (b.committed a d).tmem = b.tmem.writeWord a d := rfl
@[simp] theorem Block.committed_fault (b : Block) (a d : Word) : (b.committed a d).fault = b.fault := rfl
@[simp] theorem Block.committed_refused (b : Block) (a d : Word) :
    (b.committed a d).refused = b.refused := rfl

/-! ### Targets and the addressed target -/

@[simp] theorem State.setTarget_cfg (s : State) (t : Target) : (s.setTarget t).cfg = s.cfg := rfl
@[simp] theorem State.setTarget_sel (s : State) (t : Target) : (s.setTarget t).sel = s.sel := rfl
@[simp] theorem State.setTarget_hosts (s : State) (t : Target) : (s.setTarget t).hosts = s.hosts := rfl
@[simp] theorem State.setTarget_reply (s : State) (t : Target) : (s.setTarget t).reply = s.reply := rfl
@[simp] theorem State.setTarget_draws (s : State) (t : Target) : (s.setTarget t).draws = s.draws := rfl
@[simp] theorem State.setTarget_reads (s : State) (t : Target) : (s.setTarget t).reads = s.reads := rfl
@[simp] theorem State.setTarget_waits (s : State) (t : Target) : (s.setTarget t).waits = s.waits := rfl
@[simp] theorem State.setTarget_turns (s : State) (t : Target) : (s.setTarget t).turns = s.turns := rfl
@[simp] theorem State.setTarget_targets (s : State) (t : Target) :
    (s.setTarget t).targets = s.targets.set s.sel t := rfl

@[simp] theorem State.select_cfg (s : State) (k : Nat) : (s.select k).cfg = s.cfg := rfl
@[simp] theorem State.select_sel (s : State) (k : Nat) : (s.select k).sel = k := rfl
@[simp] theorem State.select_hosts (s : State) (k : Nat) : (s.select k).hosts = s.hosts := rfl
@[simp] theorem State.select_reply (s : State) (k : Nat) : (s.select k).reply = none := rfl
@[simp] theorem State.select_draws (s : State) (k : Nat) : (s.select k).draws = s.draws := rfl
@[simp] theorem State.select_reads (s : State) (k : Nat) : (s.select k).reads = s.reads := rfl
@[simp] theorem State.select_waits (s : State) (k : Nat) : (s.select k).waits = s.waits := rfl
@[simp] theorem State.select_turns (s : State) (k : Nat) : (s.select k).turns = s.turns := rfl
@[simp] theorem State.select_targets (s : State) (k : Nat) : (s.select k).targets = s.targets := rfl
@[simp] theorem State.select_target? (s : State) (k : Nat) : (s.select k).target? = s.targets[k]? := rfl

@[simp] theorem Target.tick_block (t : Target) : t.tick.block = t.block := rfl
@[simp] theorem Target.tick_wait (t : Target) : t.tick.wait = t.wait - 1 := rfl

@[simp] theorem State.tick_cfg (s : State) : s.tick.cfg = s.cfg := rfl
@[simp] theorem State.tick_sel (s : State) : s.tick.sel = s.sel := rfl
@[simp] theorem State.tick_hosts (s : State) : s.tick.hosts = s.hosts := rfl
@[simp] theorem State.tick_reply (s : State) : s.tick.reply = s.reply := rfl
@[simp] theorem State.tick_draws (s : State) : s.tick.draws = s.draws := rfl
@[simp] theorem State.tick_reads (s : State) : s.tick.reads = s.reads := rfl
@[simp] theorem State.tick_waits (s : State) : s.tick.waits = s.waits := rfl
@[simp] theorem State.tick_turns (s : State) : s.tick.turns = s.turns := rfl
@[simp] theorem State.tick_targets (s : State) : s.tick.targets = s.targets.map Target.tick := rfl

@[simp] theorem State.resetTarget_cfg (s : State) (k : Nat) : (s.resetTarget k).cfg = s.cfg := rfl
@[simp] theorem State.resetTarget_targets (s : State) (k : Nat) :
    (s.resetTarget k).targets = s.targets.set k ⟨Block.reset, 0⟩ := rfl

/-! ### How a transaction ends -/

@[simp] theorem State.noReply_cfg (s : State) : s.noReply.cfg = s.cfg := rfl
@[simp] theorem State.noReply_sel (s : State) : s.noReply.sel = s.sel := rfl
@[simp] theorem State.noReply_hosts (s : State) : s.noReply.hosts = s.hosts := rfl
@[simp] theorem State.noReply_reply (s : State) : s.noReply.reply = none := rfl
@[simp] theorem State.noReply_draws (s : State) : s.noReply.draws = s.draws := rfl
@[simp] theorem State.noReply_reads (s : State) : s.noReply.reads = s.reads := rfl
@[simp] theorem State.noReply_waits (s : State) : s.noReply.waits = s.waits := rfl
@[simp] theorem State.noReply_turns (s : State) : s.noReply.turns = s.turns := rfl
@[simp] theorem State.noReply_targets (s : State) : s.noReply.targets = s.targets := rfl

@[simp] theorem State.complete_cfg (s : State) (t : Target) (b : Block) (r : Option Half) :
    (s.complete t b r).cfg = s.cfg := rfl
@[simp] theorem State.complete_sel (s : State) (t : Target) (b : Block) (r : Option Half) :
    (s.complete t b r).sel = s.sel := rfl
@[simp] theorem State.complete_hosts (s : State) (t : Target) (b : Block) (r : Option Half) :
    (s.complete t b r).hosts = s.hosts := rfl
@[simp] theorem State.complete_reply (s : State) (t : Target) (b : Block) (r : Option Half) :
    (s.complete t b r).reply = r := rfl
@[simp] theorem State.complete_draws (s : State) (t : Target) (b : Block) (r : Option Half) :
    (s.complete t b r).draws = s.draws := rfl
@[simp] theorem State.complete_reads (s : State) (t : Target) (b : Block) (r : Option Half) :
    (s.complete t b r).reads = s.reads := rfl
@[simp] theorem State.complete_waits (s : State) (t : Target) (b : Block) (r : Option Half) :
    (s.complete t b r).waits = s.waits := rfl
@[simp] theorem State.complete_turns (s : State) (t : Target) (b : Block) (r : Option Half) :
    (s.complete t b r).turns = s.turns := rfl
@[simp] theorem State.complete_targets (s : State) (t : Target) (b : Block) (r : Option Half) :
    (s.complete t b r).targets = s.targets.set s.sel ⟨b, t.wait⟩ := rfl

/-- Recording a fault is completing the transaction with the mark set and nothing returned (R143). -/
theorem State.takeFault_eq (s : State) (t : Target) (f : FaultMark) :
    s.takeFault t f = s.complete t { t.block with fault := some f } none := rfl

/-- Likewise for a refusal (R143). -/
theorem State.takeRefusal_eq (s : State) (t : Target) (r : Refuse) :
    s.takeRefusal t r = s.complete t { t.block with refused := some r } none := rfl

@[simp] theorem State.takeDraw_cfg (s : State) : s.takeDraw.cfg = s.cfg := by
  unfold State.takeDraw; split <;> rfl
@[simp] theorem State.takeDraw_sel (s : State) : s.takeDraw.sel = s.sel := by
  unfold State.takeDraw; split <;> rfl
@[simp] theorem State.takeDraw_hosts (s : State) : s.takeDraw.hosts = s.hosts := by
  unfold State.takeDraw; split <;> rfl
@[simp] theorem State.takeDraw_waits (s : State) : s.takeDraw.waits = s.waits := by
  unfold State.takeDraw; split <;> rfl
@[simp] theorem State.takeDraw_turns (s : State) : s.takeDraw.turns = s.turns := by
  unfold State.takeDraw; split <;> rfl
@[simp] theorem State.takeDraw_targets (s : State) : s.takeDraw.targets = s.targets := by
  unfold State.takeDraw; split <;> rfl

@[simp] theorem State.drawReply_cfg (s : State) (f : Half → Half) : (s.drawReply f).cfg = s.cfg :=
  s.takeDraw_cfg
@[simp] theorem State.drawReply_sel (s : State) (f : Half → Half) : (s.drawReply f).sel = s.sel :=
  s.takeDraw_sel
@[simp] theorem State.drawReply_hosts (s : State) (f : Half → Half) : (s.drawReply f).hosts = s.hosts :=
  s.takeDraw_hosts
@[simp] theorem State.drawReply_waits (s : State) (f : Half → Half) : (s.drawReply f).waits = s.waits :=
  s.takeDraw_waits
@[simp] theorem State.drawReply_turns (s : State) (f : Half → Half) : (s.drawReply f).turns = s.turns :=
  s.takeDraw_turns
@[simp] theorem State.drawReply_targets (s : State) (f : Half → Half) :
    (s.drawReply f).targets = s.targets :=
  s.takeDraw_targets
@[simp] theorem State.drawReply_reply (s : State) (f : Half → Half) :
    (s.drawReply f).reply = some (f s.nextDraw) := rfl

@[simp] theorem State.takeWait_cfg (s : State) : s.takeWait.cfg = s.cfg := by
  unfold State.takeWait; split <;> rfl
@[simp] theorem State.takeWait_sel (s : State) : s.takeWait.sel = s.sel := by
  unfold State.takeWait; split <;> rfl
@[simp] theorem State.takeWait_hosts (s : State) : s.takeWait.hosts = s.hosts := by
  unfold State.takeWait; split <;> rfl
@[simp] theorem State.takeWait_reads (s : State) : s.takeWait.reads = s.reads := by
  unfold State.takeWait; split <;> rfl
@[simp] theorem State.takeWait_turns (s : State) : s.takeWait.turns = s.turns := by
  unfold State.takeWait; split <;> rfl
@[simp] theorem State.takeWait_targets (s : State) : s.takeWait.targets = s.targets := by
  unfold State.takeWait; split <;> rfl

@[simp] theorem State.acceptWord_cfg (s : State) (t : Target) : (s.acceptWord t).cfg = s.cfg :=
  s.takeWait_cfg
@[simp] theorem State.acceptWord_sel (s : State) (t : Target) : (s.acceptWord t).sel = s.sel :=
  s.takeWait_sel
@[simp] theorem State.acceptWord_hosts (s : State) (t : Target) : (s.acceptWord t).hosts = s.hosts :=
  s.takeWait_hosts
@[simp] theorem State.acceptWord_reads (s : State) (t : Target) : (s.acceptWord t).reads = s.reads :=
  s.takeWait_reads
@[simp] theorem State.acceptWord_turns (s : State) (t : Target) : (s.acceptWord t).turns = s.turns :=
  s.takeWait_turns
@[simp] theorem State.acceptWord_reply (s : State) (t : Target) : (s.acceptWord t).reply = none := rfl
@[simp] theorem State.acceptWord_targets (s : State) (t : Target) :
    (s.acceptWord t).targets = s.targets.set s.sel ⟨{ t.block with busy := true }, s.nextWait⟩ := by
  simp [State.acceptWord]

@[simp] theorem State.hostLearns_cfg (h : HostAgent) (n : Nat) (s : State) :
    (s.hostLearns h n).cfg = s.cfg := rfl
@[simp] theorem State.hostLearns_sel (h : HostAgent) (n : Nat) (s : State) :
    (s.hostLearns h n).sel = s.sel := rfl
@[simp] theorem State.hostLearns_targets (h : HostAgent) (n : Nat) (s : State) :
    (s.hostLearns h n).targets = s.targets := rfl
@[simp] theorem State.hostLearns_hosts (h : HostAgent) (n : Nat) (s : State) :
    (s.hostLearns h n).hosts = s.hosts.set n (h.respond s.cfg s.reply) := rfl
@[simp] theorem State.hostLearns_reply (h : HostAgent) (n : Nat) (s : State) :
    (s.hostLearns h n).reply = s.reply := rfl
@[simp] theorem State.hostLearns_draws (h : HostAgent) (n : Nat) (s : State) :
    (s.hostLearns h n).draws = s.draws := rfl
@[simp] theorem State.hostLearns_reads (h : HostAgent) (n : Nat) (s : State) :
    (s.hostLearns h n).reads = s.reads := rfl
@[simp] theorem State.hostLearns_waits (h : HostAgent) (n : Nat) (s : State) :
    (s.hostLearns h n).waits = s.waits := rfl
@[simp] theorem State.hostLearns_turns (h : HostAgent) (n : Nat) (s : State) :
    (s.hostLearns h n).turns = s.turns := rfl

@[simp] theorem State.placeWord_cfg (s : State) (w : TxWord) : (s.placeWord w).cfg = s.cfg := rfl
@[simp] theorem State.placeWord_sel (s : State) (w : TxWord) : (s.placeWord w).sel = s.sel := rfl
@[simp] theorem State.placeWord_hosts (s : State) (w : TxWord) :
    (s.placeWord w).hosts = placeFirst (.tx s.sel w) s.hosts := rfl
@[simp] theorem State.placeWord_targets (s : State) (w : TxWord) :
    (s.placeWord w).targets = s.targets.map Target.hold := rfl

@[simp] theorem State.takeTurn_cfg (s : State) : s.takeTurn.cfg = s.cfg := by
  unfold State.takeTurn; split <;> rfl
@[simp] theorem State.takeTurn_sel (s : State) : s.takeTurn.sel = s.sel := by
  unfold State.takeTurn; split <;> rfl
@[simp] theorem State.takeTurn_hosts (s : State) : s.takeTurn.hosts = s.hosts := by
  unfold State.takeTurn; split <;> rfl
@[simp] theorem State.takeTurn_reply (s : State) : s.takeTurn.reply = s.reply := by
  unfold State.takeTurn; split <;> rfl
@[simp] theorem State.takeTurn_reads (s : State) : s.takeTurn.reads = s.reads := by
  unfold State.takeTurn; split <;> rfl
@[simp] theorem State.takeTurn_waits (s : State) : s.takeTurn.waits = s.waits := by
  unfold State.takeTurn; split <;> rfl
@[simp] theorem State.takeTurn_targets (s : State) : s.takeTurn.targets = s.targets := by
  unfold State.takeTurn; split <;> rfl

@[simp] theorem State.tick_mover (s : State) : s.tick.mover = s.mover := rfl
@[simp] theorem State.tick_nextTurn (s : State) : s.tick.nextTurn = s.nextTurn := rfl

/-! ### The addressed target after an update -/

/-- The addressed target exists when it can be read. -/
theorem State.sel_lt_of_target? {s : State} {t : Target} (h : s.target? = some t) :
    s.sel < s.targets.length := by
  unfold State.target? at h
  exact (List.getElem?_eq_some_iff.mp h).1

/-- Writing the addressed target and reading it back. -/
theorem State.setTarget_target? {s : State} {t u : Target} (h : s.target? = some t) :
    (s.setTarget u).target? = some u := by
  simp [State.target?, State.setTarget, State.sel_lt_of_target? h]

/-- Writing the addressed target leaves every other one alone (R24). -/
theorem State.setTarget_other (s : State) (u : Target) {j : Nat} (h : j ≠ s.sel) :
    (s.setTarget u).targets[j]? = s.targets[j]? := by
  simp [State.setTarget, Ne.symm h]

end Sys2Proof.Machine
end

