-- ==== Sys2Proof/Laws/Step.lean ====
section
/-! SUPPORT. What each shared operation of a step can do, said once: the prologue, the engine's commit,
a transaction, a move of the host, a step. -/

namespace Sys2Proof.Machine

variable {s u : State} {t : Target} {m : Mnemonic}

/-! ### The prologue (R90) -/

/-- Everything the prologue can do when it answers a next state. -/
theorem prologue_next {rule : Target → Host.Outcome State Fault Refusal}
    (h : prologue s m rule = .next u) :
    ∃ t, s.target? = some t ∧
      ((t.block.stopped = true ∧ u = s.noReply) ∨
       (t.block.stopped = false ∧ t.block.busy = true ∧ m ≠ .rdCtrl ∧
          u = s.takeFault t (.busyAccess m)) ∨
       (t.block.stopped = false ∧ (t.block.busy = false ∨ m = .rdCtrl) ∧ rule t = .next u)) := by
  unfold prologue at h
  split at h
  · cases h
  · next t ht =>
    refine ⟨t, ht, ?_⟩
    split at h
    · next hs => exact .inl ⟨hs, by cases h; rfl⟩
    · next hs =>
      simp only [Bool.not_eq_true] at hs
      split at h
      · next hb =>
        simp only [Bool.and_eq_true, decide_eq_true_eq] at hb
        exact .inr (.inl ⟨hs, hb.1, hb.2, by cases h; rfl⟩)
      · next hb =>
        refine .inr (.inr ⟨hs, ?_, h⟩)
        simp only [Bool.and_eq_true, decide_eq_true_eq, not_and, not_not] at hb
        cases hbusy : t.block.busy
        · exact .inl rfl
        · exact .inr (hb hbusy)

/-- A stopped run keeps its state (R90 step 1). -/
theorem prologue_stopped (rule : Target → Host.Outcome State Fault Refusal)
    (ht : s.target? = some t) (hs : t.block.stopped = true) :
    prologue s m rule = .next s.noReply := by
  simp [prologue, ht, hs]

/-- Any transaction but `RD.CTRL` faults while a word is in flight (R90 step 3). -/
theorem prologue_busy (rule : Target → Host.Outcome State Fault Refusal)
    (ht : s.target? = some t) (hs : t.block.stopped = false) (hb : t.block.busy = true)
    (hm : m ≠ .rdCtrl) : prologue s m rule = .next (s.takeFault t (.busyAccess m)) := by
  simp [prologue, ht, hs, hb, hm]

/-- With no word in flight the instruction's own rule decides (R90 step 4). -/
theorem prologue_idle (rule : Target → Host.Outcome State Fault Refusal)
    (ht : s.target? = some t) (hs : t.block.stopped = false) (hb : t.block.busy = false) :
    prologue s m rule = rule t := by
  simp [prologue, ht, hs, hb]

/-- `RD.CTRL` is exempt from the busy check (R90, R98). -/
theorem prologue_poll (rule : Target → Host.Outcome State Fault Refusal)
    (ht : s.target? = some t) (hs : t.block.stopped = false) :
    prologue s .rdCtrl rule = rule t := by
  simp [prologue, ht, hs]

/-! ### The engine (R104) -/

/-- A commit that succeeds stores the data word at the pointer, inside `TMemWrite`'s precondition. -/
theorem commit_ok {c : Config} {b b' : Block} (h : commit c b = .ok b') :
    ∃ a d, b.pointer? = some a ∧ b.dataWord? = some d ∧ writable c a = true ∧
      b' = b.committed a d := by
  unfold commit at h
  split at h
  · cases h
  · next a ha =>
    split at h
    · cases h
    · next d hd =>
      split at h
      · next hw => exact ⟨a, d, ha, hd, hw, by cases h; rfl⟩
      · cases h

/-- The commit of a record with all four halves and a writable address succeeds. -/
theorem commit_of {c : Config} {b : Block} {a d : Word} (ha : b.pointer? = some a)
    (hd : b.dataWord? = some d) (hw : writable c a = true) : commit c b = .ok (b.committed a d) := by
  simp [commit, ha, hd, hw]

/-- Everything the engine's move can do when it answers a next state. -/
theorem engineMove_next {k : Nat} (h : engineMove k s = .next u) :
    ∃ t b, s.targets[k]? = some t ∧ commit s.cfg t.block = .ok b ∧
      u = { s with targets := (s.targets.map Target.tick).set k ⟨b, 0⟩ } := by
  unfold engineMove at h
  split at h
  · cases h
  · next t ht =>
    split at h
    · cases h
    · next b hb => exact ⟨t, b, ht, hb, by cases h; rfl⟩

/-- The engine that is due is a target of the machine, and its commit is enabled. -/
theorem due_some {k : Nat} (h : s.due = some k) :
    ∃ t, s.targets[k]? = some t ∧ t.due = true := by
  obtain ⟨hlt, hd, -⟩ := List.findIdx?_eq_some_iff_getElem.mp h
  exact ⟨s.targets[k], List.getElem?_eq_getElem hlt, hd⟩

/-- When no engine is due, no target's engine is. -/
theorem due_none (h : s.due = none) : ∀ t ∈ s.targets, t.due = false := by
  simpa [State.due, List.findIdx?_eq_none_iff] using h

/-! ### Outcomes, transactions, moves, steps -/

theorem mapNext_next {f : State → State} {o : Host.Outcome State Fault Refusal}
    (h : mapNext f o = .next u) : ∃ v, o = .next v ∧ u = f v := by
  cases o with
  | next v => exact ⟨v, rfl, by cases h; rfl⟩
  | fault r => cases h
  | refused r => cases h

@[simp] theorem mapNext_of_next (f : State → State) (v : State) :
    mapNext f (.next v) = .next (f v) := rfl

/-- Everything a transaction word can do at the registers when it answers a next state. -/
theorem issue_next {k : Nat} {w : TxWord} (h : issue k w s = .next u) :
    ∃ t, s.targets[k]? = some t ∧
      ((t.block.stopped = true ∧ u = s.select k) ∨
       (t.block.stopped = false ∧ ∃ i, decode s.cfg w = .instr i ∧ exec i (s.select k) = .next u) ∨
       (t.block.stopped = false ∧ ∃ r, decode s.cfg w = .refuse r ∧
          u = (s.select k).takeRefusal t r)) := by
  unfold issue at h
  split at h
  · cases h
  · next t ht =>
    refine ⟨t, ht, ?_⟩
    split at h
    · next hs => exact .inl ⟨hs, by cases h; rfl⟩
    · next hs =>
      simp only [Bool.not_eq_true] at hs
      split at h
      · next i hi => exact .inr (.inl ⟨hs, i, hi, h⟩)
      · next r hr => exact .inr (.inr ⟨hs, r, hr, by cases h; rfl⟩)

/-- Everything a refusal before any transaction can do. -/
theorem refuseBefore_next {k : Nat} {r : Refuse} (h : refuseBefore k r s = .next u) :
    ∃ t, s.targets[k]? = some t ∧
      ((t.block.stopped = true ∧ u = s.select k) ∨
       (t.block.stopped = false ∧ u = (s.select k).takeRefusal t r)) := by
  unfold refuseBefore at h
  split at h
  · cases h
  · next t ht =>
    refine ⟨t, ht, ?_⟩
    split at h
    · next hs => exact .inl ⟨hs, by cases h; rfl⟩
    · next hs => exact .inr ⟨by simpa using hs, by cases h; rfl⟩

/-- The agent that moves is one of the machine's and has something to issue. -/
theorem mover_some {h : HostAgent} {n : Nat} (hm : s.mover = some (h, n)) :
    s.hosts[n]? = some h ∧ h.ready = true := by
  have hmem : (h, n) ∈ s.readyHosts := by
    unfold State.mover at hm
    split at hm
    · cases hm
    · next p hp => cases hm; simp [hp]
    · next p q rest hp => rw [hp]; exact List.mem_of_getElem? hm
  obtain ⟨h1, h2⟩ := List.mem_filter.mp hmem
  exact ⟨List.mem_zipIdx_iff_getElem?.mp h1, h2⟩

/-- When no agent moves, none has anything to issue. -/
theorem mover_none (hm : s.mover = none) : ∀ h ∈ s.hosts, h.ready = false := by
  have hnil : s.readyHosts = [] := by
    unfold State.mover at hm
    split at hm
    · next hp => exact hp
    · cases hm
    · next p q rest hp =>
      have := List.getElem?_eq_none_iff.mp hm
      have hlt := Nat.mod_lt s.nextTurn (show 0 < rest.length + 2 by omega)
      simp at this
      omega
  intro h hh
  obtain ⟨n, hn, rfl⟩ := List.mem_iff_getElem.mp hh
  have := List.filter_eq_nil_iff.mp hnil (s.hosts[n], n)
    (List.mem_zipIdx_iff_getElem?.mpr (List.getElem?_eq_getElem hn))
  simpa using this

/-- The target of a request is the one the next operation is addressed to. -/
theorem request_target {c : Config} {h : HostAgent} {k : Nat} {w : TxWord}
    (hq : h.request c = some (k, w)) : ∃ op rest, h.script = op :: rest ∧ op.target = k := by
  unfold HostAgent.request at hq
  split at hq
  · cases hq
  · next hs => cases hq; exact ⟨_, _, hs, rfl⟩
  · next hs => cases hq; exact ⟨_, _, hs, rfl⟩
  · next hs => cases hq; exact ⟨_, _, hs, rfl⟩
  · cases hq

/-- Everything a move of the hosts can do: nothing, or the agent whose turn it is makes a refusal before
any transaction, or one transaction, after which it learns what was returned. -/
theorem hostMove_next (h : hostMove s = .next u) :
    u = s ∨
    ∃ a n, s.mover = some (a, n) ∧
      ((∃ k r more rest v, a.script = .refuse k r more :: rest ∧
          refuseBefore k r s.takeTurn = .next v ∧ u = v.hostLearns a n) ∨
       (∃ k w v, a.request s.cfg = some (k, w) ∧ issue k w s.takeTurn = .next v ∧
          u = v.hostLearns a n)) := by
  unfold hostMove at h
  split at h
  · exact .inl (by cases h; rfl)
  · next a n hm =>
    split at h
    · next k r more rest hs =>
      obtain ⟨v, hv, rfl⟩ := mapNext_next h
      exact .inr ⟨a, n, hm, .inl ⟨k, r, more, rest, v, hs, hv, rfl⟩⟩
    · split at h
      · exact .inl (by cases h; rfl)
      · next k w hk =>
        obtain ⟨v, hv, rfl⟩ := mapNext_next h
        exact .inr ⟨a, n, hm, .inr ⟨k, w, v, hk, hv, rfl⟩⟩

/-- Everything a step can do: the first due engine commits, or the host moves. -/
theorem step_next (h : step s = .next u) :
    (∃ k, s.due = some k ∧ engineMove k s = .next u) ∨
    (s.due = none ∧ hostMove s.tick = .next u) := by
  unfold step at h
  split at h
  · next k hk => exact .inl ⟨k, hk, h⟩
  · next hn => exact .inr ⟨hn, h⟩

end Sys2Proof.Machine
end

