-- ==== Sys2Proof/Laws/Exec.lean ====
section
/-! SUPPORT. Everything an instruction can do to the addressed target, said once. -/

namespace Sys2Proof.Machine

/-- Writing the addressed target with itself changes nothing. -/
theorem State.set_target_self {s : State} {t : Target} (h : s.target? = some t) :
    s.targets.set s.sel t = s.targets := by
  obtain ⟨hlt, rfl⟩ := List.getElem?_eq_some_iff.mp h
  simp

/-- The bits of a half with one bit replaced. -/
theorem withBit_getLsbD (v : Half) (i : Fin 16) (x : Bool) (j : Nat) :
    (withBit v i x).getLsbD j = if j = i.val then x else v.getLsbD j := by
  have hi : ∀ j, (Half.bit i).getLsbD j = decide (j = i.val) := by
    intro j
    unfold Half.bit
    rw [BitVec.getLsbD_shiftLeft, BitVec.getLsbD_one]
    have := i.isLt
    by_cases h : j = i.val
    · subst h; simp [this]
    · have : ¬ (¬ j < i.val ∧ j - i.val = 0) := by omega
      simp only [h, decide_false]
      grind
  unfold withBit
  by_cases hj : j < 16
  · cases x
    · simp only [Bool.false_eq_true, if_false, BitVec.getLsbD_and, BitVec.getLsbD_not, hi, hj,
        decide_true, Bool.true_and]
      by_cases h : j = i.val <;> simp [h]
    · simp only [if_true, BitVec.getLsbD_or, hi]
      by_cases h : j = i.val <;> simp [h]
  · have : j ≠ i.val := by omega
    rw [if_neg this, BitVec.getLsbD_of_ge _ _ (by omega), BitVec.getLsbD_of_ge _ _ (by omega)]

/-- How an instruction can change the addressed target: not at all; by one mark on a run that was not
stopped; by one register it writes, with no word in flight; or by accepting a word whose halves are
all written and whose address is valid. -/
inductive Effect (i : Instr) (c : Config) (t : Target) : Target → Prop where
  | same : Effect i c t t
  | fault (f : FaultMark) (h : t.block.stopped = false) (hi : ∀ b, f = .busyAccess b → i ≠ .rdCtrl) :
      Effect i c t { t with block := { t.block with fault := some f } }
  | refused (r : Refuse) (h : t.block.stopped = false) :
      Effect i c t { t with block := { t.block with refused := some r } }
  | crcReset (hi : i = .mbCrcrst) (h : t.block.stopped = false) (hb : t.block.busy = false) :
      Effect i c t { t with block := t.block.set .crc (some c.crcInit) }
  | addrh (v : Half) (hi : i = .wrAddrh v) (h : t.block.stopped = false) (hb : t.block.busy = false) :
      Effect i c t { t with block := t.block.set .addrMsw (some v) }
  | addrl (v : Half) (hi : i = .wrAddrl v) (hv : v.aligned = true) (h : t.block.stopped = false)
      (hb : t.block.busy = false) : Effect i c t { t with block := t.block.set .addrLsw (some v) }
  | datah (v : Half) (hi : i = .wrDatah v) (h : t.block.stopped = false) (hb : t.block.busy = false) :
      Effect i c t { t with block := t.block.set .dataMsw (some v) }
  | datal (v : Half) (hi : i = .wrDatal v) (h : t.block.stopped = false) (hb : t.block.busy = false) :
      Effect i c t { t with block := t.block.set .dataLsw (some v) }
  | accept (a d : Word) (w : Nat) (hi : i = .mbXwr) (h : t.block.stopped = false)
      (hb : t.block.busy = false) (ha : t.block.pointer? = some a) (hd : t.block.dataWord? = some d)
      (hv : tmemValid c a = true) : Effect i c t ⟨{ t.block with busy := true }, w⟩

/-- The addressed target is changed by an instruction in no way but an `Effect`, and nothing else of
the machine changes but the value returned and what has been drawn. -/
structure ExecTo (i : Instr) (s u : State) (t t' : Target) : Prop where
  target : s.target? = some t
  effect : Effect i s.cfg t t'
  targets : u.targets = s.targets.set s.sel t'
  cfg : u.cfg = s.cfg
  sel : u.sel = s.sel
  hosts : u.hosts = s.hosts

/-- A prologue whose rule is an `ExecTo` is one. -/
theorem prologue_execTo {i : Instr} {s u : State} {m : Mnemonic}
    {rule : Target → Host.Outcome State Fault Refusal} (h : prologue s m rule = .next u)
    (hm : i = .rdCtrl → m = .rdCtrl)
    (hrule : ∀ t, s.target? = some t → t.block.stopped = false →
      (t.block.busy = false ∨ m = .rdCtrl) → rule t = .next u → ∃ t', ExecTo i s u t t') :
    ∃ t t', ExecTo i s u t t' := by
  obtain ⟨t, ht, ⟨-, rfl⟩ | ⟨hs, -, hne, rfl⟩ | ⟨hs, hb, hr⟩⟩ := prologue_next h
  · exact ⟨t, t, ht, .same, (State.set_target_self ht).symm, rfl, rfl, rfl⟩
  · exact ⟨t, _, ht, .fault _ hs (fun _ _ hi => hne (hm hi)), rfl, rfl, rfl, rfl⟩
  · exact ⟨t, hrule t ht hs hb hr⟩

/-- A draw changes no target. -/
theorem drawReply_execTo {i : Instr} {s : State} {t : Target} (ht : s.target? = some t)
    (f : Half → Half) : ExecTo i s (s.drawReply f) t t where
  target := ht
  effect := .same
  targets := by simp [State.set_target_self ht]
  cfg := by simp
  sel := by simp
  hosts := by simp

/-- Completing a transaction changes the addressed target's record alone. -/
theorem complete_execTo {i : Instr} {s : State} {t : Target} {b : Block} (r : Option Half)
    (ht : s.target? = some t) (he : Effect i s.cfg t { t with block := b }) :
    ExecTo i s (s.complete t b r) t { t with block := b } :=
  ⟨ht, he, rfl, rfl, rfl, rfl⟩

/-- A register write is an `ExecTo` when the register change is an `Effect`. -/
theorem writeHalf_execTo {i : Instr} {s u : State} {m : Mnemonic} {r : Reg} {v : Half}
    (h : writeHalf m r v s = .next u) (hm : i ≠ .rdCtrl) (hne : m ≠ .rdCtrl)
    (he : ∀ t : Target, t.block.stopped = false → t.block.busy = false →
      Effect i s.cfg t { t with block := t.block.set r (some v) }) :
    ∃ t t', ExecTo i s u t t' :=
  prologue_execTo h (fun hi => absurd hi hm) fun t ht hs hb hr => by
    obtain rfl : s.complete t _ none = u := by simpa using hr
    exact ⟨_, complete_execTo none ht (he t hs (hb.resolve_right hne))⟩

/-- Everything an instruction can do when it answers a next state. -/
theorem exec_next {i : Instr} {s u : State} (h : exec i s = .next u) :
    ∃ t t', ExecTo i s u t t' := by
  cases i with
  | rdCtrl =>
    refine prologue_execTo h (fun _ => rfl) fun t ht _ _ hr => ?_
    obtain rfl : s.drawReply _ = u := by simpa using hr
    exact ⟨t, drawReply_execTo ht _⟩
  | rdCrc =>
    refine prologue_execTo h (fun hi => by cases hi) fun t ht hs _ hr => ?_
    split at hr
    · obtain rfl : s.takeFault t _ = u := by simpa using hr
      exact ⟨_, complete_execTo none ht (.fault _ hs (by simp))⟩
    · obtain rfl : s.complete t t.block _ = u := by simpa using hr
      exact ⟨t, complete_execTo _ ht .same⟩
  | rdAddrh | rdAddrl | rdDatah | rdDatal =>
    refine prologue_execTo h (fun hi => by cases hi) fun t ht _ _ hr => ?_
    obtain rfl : s.drawReply _ = u := by simpa using hr
    exact ⟨t, drawReply_execTo ht _⟩
  | mbCrcrst =>
    refine prologue_execTo h (fun hi => by cases hi) fun t ht hs hb hr => ?_
    obtain rfl : s.complete t _ none = u := by simpa using hr
    exact ⟨_, complete_execTo none ht (.crcReset rfl hs (hb.resolve_right (by decide)))⟩
  | mbXwr =>
    refine prologue_execTo h (fun hi => by cases hi) fun t ht hs hb hr => ?_
    split at hr
    · obtain rfl : s.takeFault t _ = u := by simpa using hr
      exact ⟨_, complete_execTo none ht (.fault _ hs (by simp))⟩
    · next a ha =>
      split at hr
      · obtain rfl : s.takeFault t _ = u := by simpa using hr
        exact ⟨_, complete_execTo none ht (.fault _ hs (by simp))⟩
      · next d hd =>
        split at hr
        · next hv =>
          obtain rfl : s.acceptWord t = u := by simpa using hr
          exact ⟨_, ht, .accept a d s.nextWait rfl hs (hb.resolve_right (by decide)) ha hd hv,
            by simp, by simp, by simp, by simp⟩
        · obtain rfl : s.takeFault t _ = u := by simpa using hr
          exact ⟨_, complete_execTo none ht (.fault _ hs (by simp))⟩
  | wrAddrh v => exact writeHalf_execTo h (by simp) (by decide) fun t hs hb => .addrh v rfl hs hb
  | wrAddrl v =>
    simp only [exec, execWrAddrl] at h
    split at h
    · next hv => exact writeHalf_execTo h (by simp) (by decide) fun t hs hb => .addrl v rfl hv hs hb
    · split at h
      · cases h
      · next t ht =>
        split at h
        · obtain rfl : s.noReply = u := by simpa using h
          exact ⟨t, t, ht, .same, (State.set_target_self ht).symm, rfl, rfl, rfl⟩
        · next hs =>
          obtain rfl : s.takeRefusal t _ = u := by simpa using h
          exact ⟨t, _, complete_execTo none ht (.refused _ (by simpa using hs))⟩
  | wrDatah v => exact writeHalf_execTo h (by simp) (by decide) fun t hs hb => .datah v rfl hs hb
  | wrDatal v => exact writeHalf_execTo h (by simp) (by decide) fun t hs hb => .datal v rfl hs hb

end Sys2Proof.Machine
end

