-- ==== Sys2Proof/Laws/HostStep.lean ====
section
/-! SUPPORT. What a move of the host can do to the targets, said once, and how the word alignment of a
pointer passes between its halves and the word. -/

namespace Sys2Proof.Machine

/-- A list with one entry replaced, read at any place. -/
theorem getElem?_of_set {l : List Target} {k j : Nat} {a x : Target} (h : (l.set k a)[j]? = some x) :
    (j = k ∧ x = a) ∨ (j ≠ k ∧ l[j]? = some x) := by
  rw [List.getElem?_set] at h
  split at h
  · split at h <;> simp_all
  · exact .inr ⟨by omega, h⟩

/-- A move of the hosts leaves every target alone, or changes the one the moving agent's next operation
is addressed to: by a refusal, or by the effect of the instruction its word decodes to. -/
theorem hostMove_targets {s u : State} (h : hostMove s = .next u) :
    u.cfg = s.cfg ∧
    (u.targets = s.targets ∨
      ∃ a n op rest k t t', s.mover = some (a, n) ∧ a.script = op :: rest ∧ op.target = k ∧
        s.targets[k]? = some t ∧ u.targets = s.targets.set k t' ∧
        ((∃ r, t.block.stopped = false ∧ t' = { t with block := { t.block with refused := some r } }) ∨
         (∃ i w, a.request s.cfg = some (k, w) ∧ decode s.cfg w = .instr i ∧
            Effect i s.cfg t t'))) := by
  rcases hostMove_next h with rfl | ⟨a, n, hm, ⟨k, r, more, rest, v, hsc, hv, rfl⟩ | ⟨k, w, v, hq, hv, rfl⟩⟩
  · exact ⟨rfl, .inl rfl⟩
  · obtain ⟨t, ht, ⟨-, rfl⟩ | ⟨hs, rfl⟩⟩ := refuseBefore_next hv
    · exact ⟨by simp, .inl (by simp)⟩
    · exact ⟨by simp [State.takeRefusal_eq], .inr ⟨a, n, _, rest, k, t,
        { t with block := { t.block with refused := some r } }, hm, hsc, rfl,
        by simpa using ht, by simp [State.takeRefusal_eq], .inl ⟨r, hs, rfl⟩⟩⟩
  · obtain ⟨op, rest, hsc, hk⟩ := request_target hq
    obtain ⟨t, ht, ⟨-, rfl⟩ | ⟨-, i, hd, hi⟩ | ⟨hs, r, -, rfl⟩⟩ := issue_next hv
    · exact ⟨by simp, .inl (by simp)⟩
    · obtain ⟨t, t', e⟩ := exec_next hi
      exact ⟨by simp [e.cfg], .inr ⟨a, n, op, rest, k, t, t', hm, hsc, hk, by simpa using e.target,
        by simp [e.targets], .inr ⟨i, w, hq, by simpa using hd, by simpa using e.effect⟩⟩⟩
    · exact ⟨by simp [State.takeRefusal_eq], .inr ⟨a, n, op, rest, k, t,
        { t with block := { t.block with refused := some r } }, hm, hsc, hk, by simpa using ht, by simp [State.takeRefusal_eq], .inl ⟨r, hs, rfl⟩⟩⟩

/-- The only agent with something to issue is the one that moves, whatever the turn. -/
theorem mover_of_alone {s : State} {h : HostAgent} {n : Nat} (hn : s.hosts[n]? = some h)
    (hr : h.ready = true) (ho : ∀ j g, j ≠ n → s.hosts[j]? = some g → g.ready = false) :
    s.mover = some (h, n) := by
  have hall : ∀ p ∈ s.readyHosts, p = (h, n) := by
    rintro ⟨g, j⟩ hp
    obtain ⟨h1, h2⟩ := List.mem_filter.mp hp
    have hg := List.mem_zipIdx_iff_getElem?.mp h1
    by_cases hj : j = n
    · subst hj
      rw [hn] at hg
      cases hg
      rfl
    · exact absurd h2 (by simp [ho j g hj hg])
  have hmem : (h, n) ∈ s.readyHosts := List.mem_filter.mpr ⟨List.mem_zipIdx_iff_getElem?.mpr hn, hr⟩
  cases hm : s.mover with
  | none => exact absurd hr (by simp [mover_none hm h (List.mem_of_getElem? hn)])
  | some p =>
    obtain ⟨hg, hgr⟩ := mover_some hm
    by_cases hj : p.2 = n
    · rw [hj, hn] at hg
      cases hg
      rw [← hj]
    · exact absurd hgr (by simp [ho p.2 p.1 hj hg])

/-- Everything a step can do to one target's record: nothing; its own engine's commit, if it is the due one;
a refusal; or the effect of the transaction the moving agent addresses to it. -/
theorem step_target {s u : State} {k : Nat} {x x' : Target} (h : step s = .next u)
    (hx : s.targets[k]? = some x) (hx' : u.targets[k]? = some x') :
    x'.block = x.block ∨ (s.due = some k ∧ commit s.cfg x.block = .ok x'.block) ∨
    (∃ r, x'.block = { x.block with refused := some r }) ∨
    ∃ a n i w, s.mover = some (a, n) ∧ a.request s.cfg = some (k, w) ∧ decode s.cfg w = .instr i ∧
      Effect i s.cfg x.tick x' := by
  have hxt : (s.targets.map Target.tick)[k]? = some x.tick := by simp [hx]
  rcases step_next h with ⟨j, hj, h⟩ | ⟨-, h⟩
  · obtain ⟨t, b, ht, hb, rfl⟩ := engineMove_next h
    rcases getElem?_of_set hx' with ⟨rfl, rfl⟩ | ⟨-, hq⟩
    · rw [hx] at ht
      cases ht
      exact .inr (.inl ⟨hj, hb⟩)
    · rw [hxt] at hq
      cases hq
      exact .inl rfl
  · obtain ⟨-, h | ⟨a, n, op, rest, j, t, t', hm, -, -, ht, hu, he⟩⟩ := hostMove_targets h
    · rw [h, State.tick_targets, hxt] at hx'
      cases hx'
      exact .inl rfl
    · rw [hu] at hx'
      rw [State.tick_targets] at ht hx'
      rcases getElem?_of_set hx' with ⟨rfl, rfl⟩ | ⟨-, hq⟩
      · rw [hxt] at ht
        cases ht
        rcases he with ⟨r, -, rfl⟩ | ⟨i, w, hq, hd, e⟩
        · exact .inr (.inr (.inl ⟨r, rfl⟩))
        · exact .inr (.inr (.inr ⟨a, n, i, w, hm, hq, hd, e⟩))
      · rw [hxt] at hq
        cases hq
        exact .inl rfl

/-- A word whose lower half is aligned is word aligned (R36). -/
theorem wordAligned_append {al : Half} (ah : Half) (h : al.aligned = true) :
    wordAligned (ah ++ al) = true := by
  simp only [Half.aligned, wordAligned, beq_iff_eq] at *
  rw [← h]
  apply BitVec.eq_of_getLsbD_eq
  intro i hi
  have : i < 16 := by omega
  simp only [BitVec.getLsbD_extractLsb', BitVec.getLsbD_append, hi]
  simp [this]

/-- The pointer after a commit keeps an aligned lower half (R19, R27 a). -/
theorem lowerHalf_aligned {a : Word} (h : wordAligned a = true) :
    (lowerHalf (a + 4#32)).aligned = true := by
  have := (wordAligned_bound h).1
  simp only [Half.aligned, lowerHalf, beq_iff_eq]
  apply BitVec.eq_of_toNat_eq
  simp [BitVec.extractLsb'_toNat]
  omega

end Sys2Proof.Machine
end

