-- ==== Sys2Proof/Laws/PerInstr.lean ====
section
/-! SUPPORT. The statements made for every instruction as syntax, one lemma per constructor. -/

namespace Sys2Proof.Laws.RowMatch

/-- The encoding of a well-formed instruction matches its row of R56's table. -/
def Statement (i : Instr) : Prop :=
  i.wf = true → encode Config.default i &&& rowMask i = rowMatch i

/-- The word of a write under the mask of the two upper fields. -/
theorem write_upper (idx : BitVec 3) (v : Half) :
    TxWord.make 1#1 idx v &&& 0xF0000#20 = TxWord.make 1#1 idx 0#16 := by
  apply BitVec.eq_of_getLsbD_eq
  intro j hj
  simp only [TxWord.make, BitVec.getLsbD_and, BitVec.getLsbD_append]
  by_cases h : j < 16
  · have : (0xF0000#20).getLsbD j = false := by interval_cases j <;> decide
    simp [h, this]
  · have : (0xF0000#20).getLsbD j = true := by interval_cases j <;> decide
    simp [h, this]

/-- The word of an aligned write under the mask that also holds bits 1:0. -/
theorem write_aligned (idx : BitVec 3) (v : Half) (hv : v.aligned = true) :
    TxWord.make 1#1 idx v &&& 0xF0003#20 = TxWord.make 1#1 idx 0#16 := by
  have hbit : ∀ j, j < 2 → v.getLsbD j = false := by
    intro j hj
    have := congrArg (fun x => x.getLsbD j) (beq_iff_eq.mp hv)
    simpa [BitVec.getLsbD_extractLsb', hj] using this
  apply BitVec.eq_of_getLsbD_eq
  intro j hj
  simp only [TxWord.make, BitVec.getLsbD_and, BitVec.getLsbD_append]
  by_cases h : j < 16
  · by_cases h2 : j < 2
    · simp only [h, if_true, hbit j h2, Bool.false_and, BitVec.getLsbD_zero]
    · have : (0xF0003#20).getLsbD j = false := by interval_cases j <;> decide
      simp [h, this]
  · have : (0xF0003#20).getLsbD j = true := by interval_cases j <;> decide
    simp [h, this]

theorem rdCtrl : Statement .rdCtrl := fun _ => by decide
theorem rdCrc : Statement .rdCrc := fun _ => by decide
theorem rdAddrh : Statement .rdAddrh := fun _ => by decide
theorem rdAddrl : Statement .rdAddrl := fun _ => by decide
theorem rdDatah : Statement .rdDatah := fun _ => by decide
theorem rdDatal : Statement .rdDatal := fun _ => by decide
theorem mbCrcrst : Statement .mbCrcrst := fun _ => by decide
theorem mbXwr : Statement .mbXwr := fun _ => by decide
theorem wrAddrh (v : Half) : Statement (.wrAddrh v) := fun _ => write_upper 2#3 v
theorem wrAddrl (v : Half) : Statement (.wrAddrl v) := fun h => write_aligned 3#3 v h
theorem wrDatah (v : Half) : Statement (.wrDatah v) := fun _ => write_upper 4#3 v
theorem wrDatal (v : Half) : Statement (.wrDatal v) := fun _ => write_upper 5#3 v

end Sys2Proof.Laws.RowMatch
end

