-- ==== Sys2Proof/Tests/Slice0.lean ====
section
/-! SUPPORT. The model's own tests. Expected values are those of 95_test_vectors.md (the vector's name
stands in each docstring) or are written out from the encoding tables; a `witness_` theorem shows a
concrete state and operands that meet all hypotheses of the statement it names, clause by clause. -/

namespace Sys2Proof.Tests

open Sys2Proof.Machine

/-! ### Small states -/

/-- The next state of an outcome, if it has one. -/
def nextOf (o : Host.Outcome State Fault Refusal) : Option State :=
  match o with
  | .next s => some s
  | .fault _ => none
  | .refused _ => none

/-- The record `CRC / ADDR_MSW ADDR_LSW / DATA_MSW DATA_LSW / busy` with empty target memory. -/
def blockOf (crc ah al dh dl : Option Half) (busy : Bool) : Block :=
  { Block.reset with crc := crc, addrMsw := ah, addrLsw := al, dataMsw := dh, dataLsw := dl, busy := busy }

/-- The start record of vectors V-M1 to V-M8. -/
def idleBlock : Block :=
  blockOf (some 0x1111#16) (some 0x2222#16) (some 0x3330#16) (some 0x4444#16) (some 0x5555#16) false

/-- The record after V-M9. -/
def busyBlock : Block := { idleBlock with busy := true }

/-- A machine with one target of a given record; the draws to come are 0xFEFF and then 0x0100. -/
def one (b : Block) (wait : Nat) : State :=
  { State.reset with targets := [⟨b, wait⟩], reads := [0xFEFF#16, 0x0100#16], waits := [5] }

/-- `one` with a script for the host. -/
def withScript (s : State) (script : List HostOp) : State := { s with hosts := [⟨script, none⟩] }

/-- The record of the first target after an instruction. -/
def blockAfter (i : Instr) (b : Block) : Option Block :=
  (nextOf (exec i (one b 3))).bind (fun s => s.target?.map (fun t => t.block))

/-- The value an instruction returns. -/
def replyAfter (i : Instr) (b : Block) : Option Half := (nextOf (exec i (one b 3))).bind (fun s => s.reply)

/-- The record of the first target after a transaction word. -/
def blockAfterWord (w : TxWord) (b : Block) : Option Block :=
  (nextOf (issue 0 w (one b 3))).bind (fun s => s.target?.map (fun t => t.block))

/-- The record after a commit. -/
def committed (c : Config) (b : Block) : Option Block :=
  match commit c b with
  | .ok b' => some b'
  | .error _ => none

/-! ### Well-formedness: an ill-formed term for each check -/

theorem test_wf_lower_half_bit1 : Instr.wf (.wrAddrl 0x0002#16) = false := by decide

theorem test_wf_lower_half_bit0 : Instr.wf (.wrAddrl 0x0001#16) = false := by decide

theorem test_wf_lower_half_top : Instr.wf (.wrAddrl 0xFFFC#16) = true := by decide

theorem test_wf_upper_half_any : Instr.wf (.wrAddrh 0xFFFF#16) = true := by decide

theorem test_wf_default : Config.default.wf = true := by decide

theorem test_wf_same_index_twice : ({ Config.default with idxCrc := 0#3 } : Config).wf = false := by decide

theorem test_wf_same_bit_twice : ({ Config.default with bitBusy := 12 } : Config).wf = false := by decide

theorem test_wf_no_target : ({ Config.default with nTargets := 0 } : Config).wf = false := by decide

/-! ### Decoding: words written out from the encoding (R50 to R52, R56), vectors of section 3 -/

theorem test_decode_reads :
    decode Config.default 0b0_000_0000000000000000#20 = .instr .rdCtrl ∧
    decode Config.default 0b0_001_0000000000000000#20 = .instr .rdCrc ∧
    decode Config.default 0b0_010_0000000000000000#20 = .instr .rdAddrh ∧
    decode Config.default 0b0_011_0000000000000000#20 = .instr .rdAddrl ∧
    decode Config.default 0b0_100_0000000000000000#20 = .instr .rdDatah ∧
    decode Config.default 0b0_101_0000000000000000#20 = .instr .rdDatal := by decide

theorem test_decode_commands :
    decode Config.default 0b1_000_0001000000000000#20 = .instr .mbCrcrst ∧
    decode Config.default 0b1_000_1100000000000000#20 = .instr .mbXwr := by decide

theorem test_decode_writes :
    decode Config.default 0b1_010_0000000000000000#20 = .instr (.wrAddrh 0x0000#16) ∧
    decode Config.default 0b1_010_1111111111111111#20 = .instr (.wrAddrh 0xFFFF#16) ∧
    decode Config.default 0b1_011_0000000000000000#20 = .instr (.wrAddrl 0x0000#16) ∧
    decode Config.default 0b1_011_1111111111111100#20 = .instr (.wrAddrl 0xFFFC#16) ∧
    decode Config.default 0b1_100_0001001000110100#20 = .instr (.wrDatah 0x1234#16) ∧
    decode Config.default 0b1_101_1111111111111111#20 = .instr (.wrDatal 0xFFFF#16) := by decide

theorem test_decode_misaligned :
    decode Config.default 0xB0001#20 = .refuse (.misalignedAddress 1#16) ∧
    decode Config.default 0xB0002#20 = .refuse (.misalignedAddress 2#16) ∧
    decode Config.default 0xB0003#20 = .refuse (.misalignedAddress 3#16) := by decide

theorem test_decode_malformed :
    decode Config.default 0x00001#20 = .refuse .malformedTransaction ∧
    decode Config.default 0x10100#20 = .refuse .malformedTransaction := by decide

theorem test_decode_reserved_register :
    decode Config.default 0x60000#20 = .refuse (.reservedRegister 6#3) ∧
    decode Config.default 0x70000#20 = .refuse (.reservedRegister 7#3) ∧
    decode Config.default 0x61234#20 = .refuse (.reservedRegister 6#3) ∧
    decode Config.default 0xE0000#20 = .refuse (.reservedRegister 6#3) ∧
    decode Config.default 0xF1234#20 = .refuse (.reservedRegister 7#3) := by decide

theorem test_decode_read_only :
    decode Config.default 0x90000#20 = .refuse .readOnlyRegister ∧
    decode Config.default 0x9FFFF#20 = .refuse .readOnlyRegister := by decide

theorem test_decode_reserved_command :
    decode Config.default 0x80000#20 = .refuse (.reservedCommand 0x0000#16) ∧
    decode Config.default 0x84000#20 = .refuse (.reservedCommand 0x4000#16) ∧
    decode Config.default 0x88000#20 = .refuse (.reservedCommand 0x8000#16) ∧
    decode Config.default 0x89000#20 = .refuse (.reservedCommand 0x9000#16) ∧
    decode Config.default 0x8D000#20 = .refuse (.reservedCommand 0xD000#16) ∧
    decode Config.default 0x8E000#20 = .refuse (.reservedCommand 0xE000#16) ∧
    decode Config.default 0x8C100#20 = .refuse (.reservedCommand 0xC100#16) ∧
    decode Config.default 0x8C001#20 = .refuse (.reservedCommand 0xC001#16) ∧
    decode Config.default 0x81001#20 = .refuse (.reservedCommand 0x1001#16) := by decide

theorem test_encode_writes :
    encode Config.default (.wrAddrh 0x3FFE#16) = 0xA3FFE#20 ∧
    encode Config.default (.wrAddrl 0x1000#16) = 0xB1000#20 ∧
    encode Config.default (.wrDatah 0x0403#16) = 0xC0403#20 ∧
    encode Config.default (.wrDatal 0x0201#16) = 0xD0201#20 := by decide

/-- Another choice of `IDX_CTRL`, `IDX_CRC` and `BIT_CRC_RESET` moves the words and nothing else. -/
theorem test_decode_other_parameters :
    decode { Config.default with idxCtrl := 7#3, idxCrc := 0#3, bitCrcReset := 0 } 0xF0001#20 =
      .instr .mbCrcrst ∧
    decode { Config.default with idxCtrl := 7#3, idxCrc := 0#3, bitCrcReset := 0 } 0x00000#20 =
      .instr .rdCrc ∧
    decode { Config.default with idxCtrl := 7#3, idxCrc := 0#3, bitCrcReset := 0 } 0x10000#20 =
      .refuse (.reservedRegister 1#3) := by decide

theorem test_table_words :
    decodeTableWord 20 0x00000 = some .rdCtrl ∧
    decodeTableWord 24 0x8C000 = some .mbXwr ∧
    decodeTableWord 20 0xB0004 = some (.wrAddrl 4#16) ∧
    decodeTableWord 20 0xB0006 = none := by decide

theorem test_assembler_numbers :
    assemble Config.default "WR.DATAL 4660 ; decimal" = some [0xD1234#20] ∧
    assemble Config.default "WR.DATAL 65536" = none ∧
    assemble Config.default "; nothing" = some [] := by decide +kernel

/-! ### The codec, vectors of section 2 -/

theorem test_crc_bit :
    crcBit 0xFFFF#16 false = 0xEFDF#16 ∧ crcBit 0xFFFF#16 true = 0xFFFE#16 ∧
    crcBit 0x7FFF#16 false = 0xFFFE#16 ∧ crcBit 0x1234#16 true = 0x3449#16 := by decide +kernel

theorem test_crc_step :
    crcStep 0x0000#16 0x80#8 = 0x9188#16 ∧ crcStep 0x1234#16 0x56#8 = 0x3C40#16 ∧
    crcStep 0xFFFF#16 0x31#8 = 0xC782#16 ∧ crcStep 0x00C3#16 0xC3#8 = 0x2A2F#16 := by decide +kernel

theorem test_crc_step_by_table :
    crcStepByTable 0x1234#16 0x56#8 = 0x3C40#16 ∧ crcTableEntry 0x44#8 = 0x0840#16 := by decide +kernel

theorem test_crc16 :
    crc16 0x0000#16 [0x12, 0x34, 0x56, 0x78] = 0xB42C#16 ∧
    crc16 0x1234#16 [0xDE, 0xAD, 0xBE, 0xEF] = 0x2BFD#16 ∧
    crc16 0x1D0F#16 [0x41] = 0x9479#16 := by decide +kernel

theorem test_crc_word :
    crcWord 0xB42C#16 0xDEADBEEF#32 = 0x0CD0#16 ∧ crcWord 0x0000#16 0x78563412#32 = 0xD0FA#16 ∧
    crcWord 0x0CFD#16 0x78563412#32 = 0x3ECB#16 := by decide +kernel

/-- V-B2, V-B5, V-B7, V-B8. -/
theorem test_blob :
    blobCrcOk 0x0000#16 [0x31, 0x32, 0x33, 0x34, 0x35, 0x36, 0x37, 0x38, 0x39, 0xC3, 0x31] =
      .err (.crcMismatch 0x31C3#16 0xC331#16) ∧
    blobCrcOk 0x0000#16 [0x00, 0x00] = .ok ∧
    blobCrcOk 0xFFFF#16 [0x00, 0x00] = .err (.crcMismatch 0xFFFF#16 0x0000#16) ∧
    blobCrcOk 0x0000#16 [0x00] = .err .outOfBounds := by decide +kernel

/-! ### The transactions, vectors of section 4 -/

/-- V-M1: bit 8 of a draw with every other bit set is cleared. -/
theorem test_rdCtrl_idle :
    replyAfter .rdCtrl idleBlock = some 0xFEFF#16 ∧ blockAfter .rdCtrl idleBlock = some idleBlock := by
  decide

/-- V-M11. -/
theorem test_rdCtrl_busy :
    replyAfter .rdCtrl busyBlock = some 0xFFFF#16 ∧ blockAfter .rdCtrl busyBlock = some busyBlock := by
  decide

/-- V-M2. -/
theorem test_rdCrc :
    replyAfter .rdCrc idleBlock = some 0x1111#16 ∧ blockAfter .rdCrc idleBlock = some idleBlock := by
  decide

/-- V-M17. -/
theorem test_rdCrc_unwritten :
    blockAfter .rdCrc Block.reset = some { Block.reset with fault := some (.unwrittenRead .crc) } := by
  decide

/-- V-M3: the value is a draw, not the stored half. -/
theorem test_rdAddrh :
    replyAfter .rdAddrh idleBlock = some 0xFEFF#16 ∧ blockAfter .rdAddrh idleBlock = some idleBlock := by
  decide

theorem test_rdAddrl :
    replyAfter .rdAddrl Block.reset = some 0xFEFF#16 ∧
    blockAfter .rdAddrl Block.reset = some Block.reset := by
  decide

theorem test_rdDatah :
    replyAfter .rdDatah idleBlock = some 0xFEFF#16 ∧ blockAfter .rdDatah idleBlock = some idleBlock := by
  decide

theorem test_rdDatal :
    replyAfter .rdDatal Block.reset = some 0xFEFF#16 ∧
    blockAfter .rdDatal Block.reset = some Block.reset := by
  decide

/-- V-M4. -/
theorem test_mbCrcrst :
    blockAfter .mbCrcrst idleBlock = some { idleBlock with crc := some 0x0000#16 } := by decide

/-- V-M24. -/
theorem test_mbCrcrst_other_seed :
    (nextOf (exec .mbCrcrst
      { one idleBlock 0 with cfg := { Config.default with crcInit := 0xFFFF#16 } })).bind
        (fun s => s.target?.bind (fun t => t.block.crc)) = some 0xFFFF#16 := by decide

/-- V-M5. -/
theorem test_wrAddrh :
    blockAfter (.wrAddrh 0xFFFF#16) idleBlock = some { idleBlock with addrMsw := some 0xFFFF#16 } := by
  decide

/-- V-M6. -/
theorem test_wrAddrl :
    blockAfter (.wrAddrl 0xFFFC#16) idleBlock = some { idleBlock with addrLsw := some 0xFFFC#16 } := by
  decide

/-- V-M7. -/
theorem test_wrDatah :
    blockAfter (.wrDatah 0x1234#16) idleBlock = some { idleBlock with dataMsw := some 0x1234#16 } := by
  decide

/-- V-M8. -/
theorem test_wrDatal :
    blockAfter (.wrDatal 0xFFFF#16) idleBlock = some { idleBlock with dataLsw := some 0xFFFF#16 } := by
  decide

/-- V-M9. -/
theorem test_mbXwr : blockAfter .mbXwr idleBlock = some busyBlock := by decide

/-- V-M15, V-M16: the address halves are checked before the data halves. -/
theorem test_mbXwr_unwritten :
    blockAfter .mbXwr (blockOf none (some 0) (some 0) none none false) =
      some { blockOf none (some 0) (some 0) none none false with
        fault := some (.unwrittenOperand .data) } ∧
    blockAfter .mbXwr (blockOf none (some 0) none (some 0) (some 0) false) =
      some { blockOf none (some 0) none (some 0) (some 0) false with
        fault := some (.unwrittenOperand .addr) } := by decide

/-- V-M12. -/
theorem test_busy_access :
    blockAfter (.wrDatah 0#16) busyBlock = some { busyBlock with fault := some (.busyAccess .wrDatah) } ∧
    blockAfter .rdCrc busyBlock = some { busyBlock with fault := some (.busyAccess .rdCrc) } ∧
    blockAfter .mbXwr busyBlock = some { busyBlock with fault := some (.busyAccess .mbXwr) } ∧
    blockAfter .mbCrcrst busyBlock = some { busyBlock with fault := some (.busyAccess .mbCrcrst) } ∧
    blockAfter .rdAddrh busyBlock = some { busyBlock with fault := some (.busyAccess .rdAddrh) } := by
  decide

/-- V-M13: decoding comes before the busy check. -/
theorem test_reserved_command_while_busy :
    blockAfterWord 0x88000#20 busyBlock =
      some { busyBlock with refused := some (.reservedCommand 0x8000#16) } := by decide

/-- V-M19. -/
def lowConfig : Config := { Config.default with validRegions := [⟨0, 0x1000⟩] }

theorem test_invalid_address :
    (nextOf (exec .mbXwr { one (blockOf (some 0) (some 0) (some 0x1000) (some 0) (some 1) false) 0 with
        cfg := lowConfig })).bind (fun s => s.target?.bind (fun t => t.block.fault)) =
      some (.targetAddressInvalid 0x00001000#32) ∧
    tmemValid lowConfig 0x00000FFC#32 = true := by decide

/-- A word placed where the next step takes it from runs in the next step. -/
theorem test_placed_word :
    (nextOf (step (State.reset.withFetchWord 24 0xAFFFF))).bind
      (fun s => s.target?.bind (fun t => t.block.addrMsw)) = some 0xFFFF#16 := by decide

/-! ### The engine -/

/-- V-M10. -/
theorem test_commit :
    committed Config.default busyBlock = some { busyBlock with
      crc := some 0x875A#16, addrMsw := some 0x2222#16, addrLsw := some 0x3334#16
      dataMsw := none, dataLsw := none, busy := false
      tmem := [(0x22223330, 0x44#8), (0x22223331, 0x44#8), (0x22223332, 0x55#8), (0x22223333, 0x55#8)] } := by
  decide +kernel

/-- V-M20: the carry into the upper half. -/
theorem test_commit_carry :
    (committed Config.default
      (blockOf (some 0xFFFF) (some 0x0000) (some 0xFFFC) (some 0x1312) (some 0x1110) true)).map
        (fun b => (b.crc, b.addrMsw, b.addrLsw, b.tmem.readWord 0x0000FFFC#32)) =
      some (some 0x0BCB#16, some 0x0001#16, some 0x0000#16, some 0x13121110#32) := by decide +kernel

/-- V-M21: no wrap at the top of the address space. -/
theorem test_commit_top :
    (committed Config.default
      (blockOf (some 0x0000) (some 0xFFFF) (some 0xFFFC) (some 0xDDCC) (some 0xBBAA) true)).map
        (fun b => (b.crc, b.addrMsw, b.addrLsw, b.tmem.readWord 0xFFFFFFFC#32)) =
      some (some 0x1444#16, none, none, some 0xDDCCBBAA#32) := by decide +kernel

/-- V-M22: an unwritten accumulator stays unwritten. -/
theorem test_commit_unwritten_crc :
    (committed Config.default
      (blockOf none (some 0x0000) (some 0x0010) (some 0xAAAA) (some 0x5555) true)).map
        (fun b => (b.crc, b.addrLsw, b.tmem.readWord 0x00000010#32)) =
      some (none, some 0x0014#16, some 0xAAAA5555#32) := by decide +kernel

/-- Overwriting a stored word keeps one entry for each byte. -/
theorem test_memory_overwrite :
    (Memory.writeWord (Memory.writeWord [] 4#32 0x01020304#32) 0#32 0xAABBCCDD#32).writeWord 4#32 0#32 =
      [(0, 0xAA#8), (1, 0xBB#8), (2, 0xCC#8), (3, 0xDD#8), (4, 0#8), (5, 0#8), (6, 0#8), (7, 0#8)] := by
  decide +kernel

/-- R35: little, big and mixed endian views of one stored word, at its lowest byte address. -/
theorem test_target_byte :
    Memory.targetByte ⟨1, 0, 3, 2⟩ (Memory.writeWord [] 8#32 0x04030201#32) 8 = some 0x02#8 ∧
    Memory.targetByte .littleEndian (Memory.writeWord [] 8#32 0x04030201#32) 8 = some 0x01#8 ∧
    Memory.targetByte .bigEndian (Memory.writeWord [] 8#32 0x04030201#32) 8 = some 0x04#8 := by
  decide +kernel

/-! ### The host procedures, vectors of section 5 -/

/-- V-H3, V-H6. -/
theorem test_words_of :
    wordsOf [0x01, 0x02, 0x03, 0x04, 0x05, 0x06] = [0x04030201#32, 0x00000605#32] ∧
    wordsOf [0x31, 0x32, 0x33, 0x34, 0x35, 0x36, 0x37, 0x38, 0x39] =
      [0x34333231#32, 0x38373635#32, 0x00000039#32] ∧ wordsOf [] = [] := by decide +kernel

/-- V-H3, V-H4 with both values of `CRC_INIT`. -/
theorem test_local_crc :
    localCrc Config.default [0x04030201#32, 0x00000605#32] = 0x0CFD#16 ∧
    localCrc { Config.default with crcInit := 0xFFFF#16 } [0x13121110#32, 0x17161514#32] = 0xDD63#16 := by
  decide +kernel

/-- V-H3': the transactions of a load, polls included. -/
theorem test_loadSeg :
    loadSeg Config.default 0 0x3FFE0000#32 [0x01, 0x02, 0x03, 0x04, 0x05, 0x06] =
      [.tx 0 0x81000#20, .tx 0 0xA3FFE#20, .tx 0 0xB0000#20, .tx 0 0xC0403#20, .tx 0 0xD0201#20,
       .tx 0 0x8C000#20, .poll 0, .tx 0 0xC0000#20, .tx 0 0xD0605#20, .tx 0 0x8C000#20, .poll 0,
       .check 0 0x0CFD#16 0] := by decide +kernel

/-- V-H7, V-H8. -/
theorem test_loadSeg_edges :
    loadSeg Config.default 0 0x3FFE0000#32 [] =
      [.tx 0 0x81000#20, .tx 0 0xA3FFE#20, .tx 0 0xB0000#20, .check 0 0x0000#16 0] ∧
    loadSeg Config.default 0 0x3FFE0002#32 [0x01] = [.refuse 0 (.misalignedAddress 0x0002#16) 0] := by
  decide +kernel

/-- V-H11: a stand-in that returns another value for `RD.CRC`. -/
theorem test_loadSeg_mismatch :
    (HostAgent.runAgainst Config.default (standIn (fun w => if w = 0x10000#20 then 0x0CFC#16 else 0#16))
      20 (HostAgent.start (loadSeg Config.default 0 0x3FFE0000#32 [0x01, 0x02, 0x03, 0x04, 0x05, 0x06])) ()).2.1 =
      ⟨[], some (.err (.crcMismatch 0x0CFD#16 0x0CFC#16))⟩ := by decide +kernel

/-- V-H12: the stand-in's first `RD.CRC` is wrong, so nothing of the second segment is issued; what stands
behind the `LOADFW` in the script is. -/
theorem test_loadFw_mismatch :
    HostAgent.runAgainst Config.default (standIn (fun _ => 0#16)) 40
      (HostAgent.start (loadFw Config.default 0 0x3FFE0000#32 [0x01] 0x40000000#32 [0x12] ++
        [.tx 1 0x81000#20])) () =
      (loadSegTransactions Config.default 0 0x3FFE0000#32 [0x01] ++ [(1, 0x81000#20)],
        ⟨[], some (.err (.crcMismatch 0x1021#16 0x0000#16))⟩, ()) := by decide +kernel

/-- A misaligned IRAM base after a good DRAM segment: the `LOADFW` does not end with `Ok`. -/
theorem test_loadFw_misaligned_second :
    (HostAgent.runAgainst Config.default (standIn (fun _ => 0#16)) 20
      (HostAgent.start (loadFw Config.default 0 0x3FFE0000#32 [] 0x40000002#32 [0x12])) ()).2.1 =
      ⟨[], none⟩ := by decide +kernel

/-! ### Witnesses: states and operands that meet the hypotheses of the statements -/

/-- A machine with empty target memory and aligned, valid pointers meets the invariant. -/
theorem inv_of_empty_memory (s : State) (hc : s.targets.length = s.cfg.nTargets)
    (ha : s.sel < s.targets.length)
    (hb : ∀ t ∈ s.targets, t.block.tmem = [] ∧ (t.block.addrLsw.all Half.aligned) = true ∧
      (t.block.fault = none ∨ t.block.refused = none) ∧
      (t.block.busy = true →
        (t.block.pointer?.any (tmemValid s.cfg)) = true ∧ t.block.dataWord?.isSome = true)) :
    s.Inv := by
  refine ⟨hc, ha, fun t ht => ?_⟩
  obtain ⟨hm, hal, hmark, hbusy⟩ := hb t ht
  refine ⟨by simp [hm, Memory.wf], ?_, ?_, by simp [hm], by simp [hm], hmark⟩
  · intro v hv
    rw [hv] at hal
    exact hal
  · intro h
    obtain ⟨h1, h2⟩ := hbusy h
    obtain ⟨a, ha⟩ := Option.any_eq_true _ _ |>.mp h1
    obtain ⟨d, hd⟩ := Option.isSome_iff_exists.mp h2
    exact ⟨a, d, ha.1, hd, ha.2⟩

/-- Two targets: the first idle, the second with a word in flight whose engine is due. -/
def dueState : State :=
  { State.reset with
    cfg := { Config.default with nTargets := 2 }
    targets := [⟨idleBlock, 0⟩, ⟨busyBlock, 0⟩]
    hosts := [⟨[.tx 0 0x00000#20], none⟩] }

/-- The same with two more steps to wait. -/
def waitState : State := { dueState with targets := [⟨idleBlock, 0⟩, ⟨busyBlock, 2⟩] }

/-- The reset machine with one transaction to issue. -/
def issuing (w : TxWord) : State := withScript (one idleBlock 0) [.tx 0 w]

theorem test_witness_DecodeOfEncode :
    ({ Config.default with idxCtrl := 7#3, bitBusy := 15, bitExecute := 0 } : Config).wf = true ∧
    Instr.wf (.wrAddrl 0xFFFC#16) = true ∧ Instr.wf .mbXwr = true := by decide

theorem test_witness_EncodeOfDecode :
    decode Config.default 0xBFFFC#20 = .instr (.wrAddrl 0xFFFC#16) ∧
    decode { Config.default with idxCrc := 0#3 } 0x00000#20 = .instr .rdCtrl := by decide

theorem test_witness_TableRowsSelectInstructions :
    (0xBFFFC#20 &&& rowMask (.wrAddrl 0#16) = rowMatch (.wrAddrl 0#16)) ∧
    (0xBFFFC#20 &&& rowMask (.wrAddrl 4#16) = rowMatch (.wrAddrl 4#16)) := by decide

theorem test_witness_DecoderIsTotal :
    TxWord.idx 0x6FFFF#20 = 6#3 ∧ TxWord.idx 0xF0000#20 = 7#3 ∧
    (one busyBlock 1).targets[0]? = some ⟨busyBlock, 1⟩ ∧ busyBlock.fault = none ∧
    busyBlock.refused = none ∧
    decode (one busyBlock 1).cfg 0x88000#20 = .refuse (.reservedCommand 0x8000#16) := by decide

theorem test_witness_CrcLinear :
    ([0x12, 0x34] : List Byte).length = ([0xAB, 0xCD] : List Byte).length := by decide

theorem test_witness_CrcResidueIsZero : blobCrcOk 0x0000#16 [0x00, 0x00] = .ok := by decide +kernel

/-- A change over exactly 16 consecutive bits that crosses byte boundaries, at the end of a message. -/
theorem test_witness_CrcDetectsBurst :
    ([0x00, 0x00, 0x00] : List Byte).length = ([0x00, 0x80, 0x01] : List Byte).length ∧
    ([0x00, 0x00, 0x00] : List Byte) ≠ [0x00, 0x80, 0x01] ∧
    ∀ n, n < 24 → messageBit [0x00, 0x00, 0x00] n ≠ messageBit [0x00, 0x80, 0x01] n →
      8 ≤ n ∧ n < 8 + 16 := by decide

theorem test_witness_BlobTrailerCheck :
    ([0x31] : List Byte).length < 2 ∧ ([] : List Byte).length < 2 ∧
    crc16 0x0000#16 [0x41] = (0x58#8 ++ 0xE5#8) ∧ crc16 0x0000#16 [0x41] ≠ (0xE5#8 ++ 0x58#8) := by
  decide +kernel

theorem test_witness_MutatedBlobFails :
    (0x41#8 : Byte) ≠ 0x40#8 ∧ blobCrcOk 0x0000#16 ([] ++ [0x41#8] ++ [] ++ [0x58#8, 0xE5#8]) = .ok := by
  decide +kernel

/-- An idle and a busy target without a mark, aligned and misaligned operands. -/
theorem test_witness_AddressWrites :
    (one idleBlock 0).target? = some ⟨idleBlock, 0⟩ ∧ idleBlock.fault = none ∧
    idleBlock.refused = none ∧ idleBlock.busy = false ∧
    (one busyBlock 0).target? = some ⟨busyBlock, 0⟩ ∧ busyBlock.fault = none ∧
    busyBlock.refused = none ∧ busyBlock.busy = true ∧
    (0xFFFC#16).extractLsb' 0 2 = 0#2 ∧ (0xFFFD#16).extractLsb' 0 2 ≠ 0#2 := by decide

theorem test_witness_DataWrites_CrcResetCommand :
    (one Block.reset 0).target? = some ⟨Block.reset, 0⟩ ∧ Block.reset.fault = none ∧
    Block.reset.refused = none ∧ Block.reset.busy = false ∧
    (one busyBlock 7).target? = some ⟨busyBlock, 7⟩ ∧ busyBlock.fault = none ∧
    busyBlock.refused = none ∧ busyBlock.busy = true := by decide

/-- A clause each: an address half missing, a data half missing, the last valid and the first invalid
address. -/
theorem test_witness_ExecuteWriteCommand :
    (one (blockOf none (some 0) none (some 0) (some 0) false) 0).target? =
      some ⟨blockOf none (some 0) none (some 0) (some 0) false, 0⟩ ∧
    (blockOf none (some 0) (some 0) (some 0) none false).dataLsw = none ∧
    idleBlock.addrMsw = some 0x2222#16 ∧ idleBlock.addrLsw = some 0x3330#16 ∧
    idleBlock.dataMsw = some 0x4444#16 ∧ idleBlock.dataLsw = some 0x5555#16 ∧
    tmemValid lowConfig (0x0000#16 ++ 0x0FFC#16) = true ∧
    tmemValid lowConfig (0x0000#16 ++ 0x1000#16) = false := by decide

theorem test_witness_ReadControl :
    (one busyBlock 4).target? = some ⟨busyBlock, 4⟩ ∧ busyBlock.fault = none ∧
    busyBlock.refused = none := by decide

theorem test_witness_ReadCrc :
    (one idleBlock 0).target? = some ⟨idleBlock, 0⟩ ∧ idleBlock.crc = some 0x1111#16 ∧
    idleBlock.busy = false ∧ Block.reset.crc = none ∧ Block.reset.busy = false ∧
    busyBlock.busy = true := by decide

theorem test_witness_ReadOpenRegisters :
    Instr.rdDatal ∈ [Instr.rdAddrh, .rdAddrl, .rdDatah, .rdDatal] ∧
    (one idleBlock 0).target? = some ⟨idleBlock, 0⟩ ∧ idleBlock.fault = none ∧
    idleBlock.refused = none ∧ idleBlock.busy = false ∧ busyBlock.busy = true := by decide

/-- A record with each mark. -/
theorem test_witness_PrologueOrder :
    (one { idleBlock with fault := some (.unwrittenRead .crc) } 0).targets[0]? =
      some ⟨{ idleBlock with fault := some (.unwrittenRead .crc) }, 0⟩ ∧
    { idleBlock with refused := some .readOnlyRegister }.refused ≠ none ∧
    decode Config.default 0x90000#20 = .refuse .readOnlyRegister ∧
    decode Config.default 0x10000#20 = .instr .rdCrc ∧ busyBlock.busy = true ∧
    Instr.rdCrc ≠ .rdCtrl ∧ idleBlock.busy = false := by decide

/-- An instruction and a record for each of the five lines of R141. -/
theorem test_witness_FaultsAreTheListedOnes :
    blockAfter (.wrDatal 0#16) busyBlock =
      some { busyBlock with fault := some (.busyAccess .wrDatal) } ∧
    (blockAfter .mbXwr Block.reset).bind (fun b => b.fault) = some (.unwrittenOperand .addr) ∧
    (blockAfter .mbXwr (blockOf none (some 0) (some 0) (some 0) none false)).bind (fun b => b.fault) =
      some (.unwrittenOperand .data) ∧
    (nextOf (exec .mbXwr { one idleBlock 0 with cfg := lowConfig })).bind
      (fun s => s.target?.bind (fun t => t.block.fault)) =
        some (.targetAddressInvalid 0x22223330#32) ∧
    (blockAfter .rdCrc Block.reset).bind (fun b => b.fault) = some (.unwrittenRead .crc) ∧
    (committed Config.default busyBlock).isSome = true := by decide +kernel

theorem test_witness_TransactionFrame :
    (∃ u, exec .rdCtrl (one busyBlock 2) = .next u) ∧ (∃ u, exec .mbXwr (one idleBlock 2) = .next u) ∧
    (∃ u, exec .rdCrc (one busyBlock 2) = .next u) ∧
    (∃ u, exec (.wrAddrl 2#16) (one idleBlock 2) = .next u) :=
  ⟨⟨_, rfl⟩, ⟨_, rfl⟩, ⟨_, rfl⟩, ⟨_, rfl⟩⟩

theorem test_witness_ReadsHaveNoSideEffect :
    Instr.rdCrc ∈ [Instr.rdCtrl, .rdCrc, .rdAddrh, .rdAddrl, .rdDatah, .rdDatal] ∧
    (∃ u, exec .rdCrc (one idleBlock 2) = .next u) ∧ (∃ u, exec .rdCrc (one Block.reset 2) = .next u) :=
  ⟨by decide, ⟨_, rfl⟩, ⟨_, rfl⟩⟩

/-- A stopped run that the host still writes to. -/
theorem test_witness_StoppedRunIsKept :
    (withScript (one { busyBlock with fault := some (.busyAccess .rdCrc) } 0)
      [.tx 0 0xA0000#20]).targets[0]? =
        some ⟨{ busyBlock with fault := some (.busyAccess .rdCrc) }, 0⟩ ∧
    { busyBlock with fault := some (.busyAccess .rdCrc) }.fault ≠ none ∧
    ∃ u, step (withScript (one { busyBlock with fault := some (.busyAccess .rdCrc) } 0)
      [.tx 0 0xA0000#20]) = .next u := by
  refine ⟨by decide, by decide, _, rfl⟩

/-- The last address of the space and the one below it. -/
theorem test_witness_CommitStoresWord :
    (blockOf none (some 0xFFFF) (some 0xFFFC) (some 1) (some 2) true).addrMsw = some 0xFFFF#16 ∧
    (blockOf none (some 0xFFFF) (some 0xFFFC) (some 1) (some 2) true).addrLsw = some 0xFFFC#16 ∧
    (blockOf none (some 0xFFFF) (some 0xFFFC) (some 1) (some 2) true).dataMsw = some 1#16 ∧
    (blockOf none (some 0xFFFF) (some 0xFFFC) (some 1) (some 2) true).dataLsw = some 2#16 ∧
    (0xFFFC#16).extractLsb' 0 2 = 0#2 ∧ (0xFFF8#16).extractLsb' 0 2 = 0#2 ∧
    tmemValid Config.default (0xFFFF#16 ++ 0xFFFC#16) = true ∧
    tmemValid Config.default (0xFFFF#16 ++ 0xFFF8#16) = true := by decide

theorem dueState_inv : dueState.Inv := by
  refine inv_of_empty_memory _ (by decide) (by decide) (fun t ht => ?_)
  have : t = ⟨idleBlock, 0⟩ ∨ t = ⟨busyBlock, 0⟩ := by simpa [dueState] using ht
  rcases this with rfl | rfl <;> decide

theorem test_witness_EngineStep :
    dueState.Inv ∧ dueState.due = some 1 ∧ dueState.targets[1]? = some ⟨busyBlock, 0⟩ ∧
    busyBlock.busy = true ∧ busyBlock.fault = none ∧ busyBlock.refused = none :=
  ⟨dueState_inv, by decide⟩

theorem test_witness_EngineNeverFails : dueState.Inv := dueState_inv

theorem test_witness_WaitRunsDown :
    (waitState.targets[1]? = some ⟨busyBlock, 2⟩ ∧ busyBlock.busy = true ∧ busyBlock.fault = none ∧
      busyBlock.refused = none ∧ ∃ u, step waitState = .next u) ∧
    (dueState.targets[1]? = some ⟨busyBlock, 0⟩ ∧ ∃ u, step dueState = .next u) ∧
    ((one idleBlock 0).target? = some ⟨idleBlock, 0⟩ ∧ idleBlock.busy = false ∧
      (nextOf (exec .mbXwr (one idleBlock 0))).bind (fun u => u.target?) = some ⟨busyBlock, 5⟩) :=
  ⟨⟨by decide, by decide, by decide, by decide, _, rfl⟩, ⟨by decide, _, rfl⟩, by decide⟩

theorem test_witness_StepKeepsInvariant : dueState.Inv ∧ ∃ u, step dueState = .next u :=
  ⟨dueState_inv, _, rfl⟩

theorem test_witness_ResetMeetsInvariant :
    ({ Config.default with nTargets := 3, crcInit := 0xFFFF#16 } : Config).wf = true := by decide

theorem test_witness_ParametersAreFixed : ∃ u, step waitState = .next u := ⟨_, rfl⟩

/-- Target 0 beside target 1's commit, and target 1 beside a transaction to target 0. -/
theorem test_witness_TargetsAreIndependent :
    ((∃ u, step dueState = .next u) ∧ dueState.targets[0]? = some ⟨idleBlock, 0⟩ ∧
      dueState.due = some 1) ∧
    ((∃ u, step waitState = .next u) ∧ waitState.targets[1]? = some ⟨busyBlock, 2⟩ ∧
      waitState.due = none ∧ waitState.mover = some (⟨[.tx 0 0x00000#20], none⟩, 0) ∧
      HostOp.target (.tx 0 0x00000#20) ≠ 1) :=
  ⟨⟨⟨_, rfl⟩, by decide⟩, ⟨_, rfl⟩, by decide⟩

/-- The due target, at the byte below and the byte above the stored word, and the target at rest. -/
theorem test_witness_OnlyCommitStores :
    (∃ u x', step dueState = .next u ∧ u.targets[1]? = some x') ∧ dueState.due = some 1 ∧
    dueState.targets[1]? = some ⟨busyBlock, 0⟩ ∧ busyBlock.addrMsw = some 0x2222#16 ∧
    busyBlock.addrLsw = some 0x3330#16 ∧ 0x2222332F < (0x2222#16 ++ 0x3330#16).toNat ∧
    (0x2222#16 ++ 0x3330#16).toNat + 4 ≤ 0x22223334 ∧ dueState.due ≠ some 0 ∧
    dueState.targets[0]? = some ⟨idleBlock, 0⟩ :=
  ⟨⟨_, _, rfl, rfl⟩, by decide⟩

/-- A step that raises `busy` and one that clears it. -/
theorem test_witness_BusyRisesAndFalls :
    ((nextOf (step (issuing 0x8C000#20))).bind (fun u => u.targets[0]?.map (fun x => x.block.busy)) =
      some true ∧ (issuing 0x8C000#20).targets[0]?.map (fun x => x.block.busy) = some false) ∧
    ((nextOf (step dueState)).bind (fun u => u.targets[1]?.map (fun x => x.block.busy)) = some false ∧
      dueState.targets[1]?.map (fun x => x.block.busy) = some true) := by decide +kernel

/-- Steps that move the pointer in each of the three ways. -/
theorem test_witness_PointerMovesOnlyBy :
    (nextOf (step (issuing 0xA0000#20))).bind (fun u => u.targets[0]?.bind (fun x => x.block.pointer?)) =
      some 0x00003330#32 ∧
    (nextOf (step (issuing 0xBFFFC#20))).bind (fun u => u.targets[0]?.bind (fun x => x.block.pointer?)) =
      some 0x2222FFFC#32 ∧
    (nextOf (step dueState)).bind (fun u => u.targets[1]?.bind (fun x => x.block.pointer?)) =
      some 0x22223334#32 ∧
    idleBlock.pointer? = some 0x22223330#32 ∧ busyBlock.pointer? = some 0x22223330#32 := by
  decide +kernel

/-- An upper half written beside an unwritten lower one. -/
theorem test_witness_PointerMovesOnlyBy_half :
    (nextOf (step (withScript (one Block.reset 0) [.tx 0 0xA3FFE#20]))).bind
      (fun u => u.targets[0]?.map (fun x => (x.block.addrMsw, x.block.pointer?))) =
      some (some 0x3FFE#16, none) ∧ Block.reset.addrMsw = none := by decide

/-- Steps that change the data halves in each of the three ways. -/
theorem test_witness_DataHalvesChangeOnlyBy :
    (nextOf (step (issuing 0xC1234#20))).bind (fun u => u.targets[0]?.bind (fun x => x.block.dataMsw)) =
      some 0x1234#16 ∧
    (nextOf (step (issuing 0xDFFFF#20))).bind (fun u => u.targets[0]?.bind (fun x => x.block.dataLsw)) =
      some 0xFFFF#16 ∧
    (nextOf (step dueState)).bind (fun u => u.targets[1]?.map (fun x => (x.block.dataMsw, x.block.dataLsw))) =
      some (none, none) ∧
    idleBlock.dataMsw = some 0x4444#16 ∧ busyBlock.dataLsw = some 0x5555#16 := by
  decide +kernel

/-- Steps that change the accumulator in each of the two ways. -/
theorem test_witness_AccumulatorChangesOnlyBy :
    (nextOf (step (issuing 0x81000#20))).bind (fun u => u.targets[0]?.bind (fun x => x.block.crc)) =
      some 0x0000#16 ∧
    (nextOf (step dueState)).bind (fun u => u.targets[1]?.bind (fun x => x.block.crc)) =
      some 0x875A#16 ∧ idleBlock.crc = some 0x1111#16 ∧ busyBlock.crc = some 0x1111#16 := by
  decide +kernel

theorem test_witness_StepRunsDecoded :
    waitState.due = none ∧ waitState.mover = some (⟨.tx 0 0x00000#20 :: [], none⟩, 0) ∧
    decode waitState.cfg 0x00000#20 = .instr .rdCtrl := by decide

/-- Two agents, each polling a target of its own: the turn picks the second. -/
def twoHosts : State :=
  { waitState with hosts := [⟨[.poll 0], none⟩, ⟨[.poll 1], none⟩], turns := [3, 0], reads := [0#16] }

theorem test_second_agent_moves :
    twoHosts.mover = some (⟨[.poll 1], none⟩, 1) ∧
    (nextOf (step twoHosts)).map (fun u => (u.sel, u.reply, u.hosts, u.turns)) =
      some (1, some 0x0100#16, twoHosts.hosts, [0]) := by decide

theorem test_witness_HostAgentsInterleave :
    (∃ u, step twoHosts = .next u) ∧ twoHosts.hosts[0]? = some ⟨[.poll 0], none⟩ ∧
    ([.poll 0] : List HostOp) ≠ [] :=
  ⟨⟨_, rfl⟩, by decide⟩

theorem test_witness_MissingTargetIsRefused :
    State.reset.targets.length ≤ 1 ∧ ({ State.reset with sel := 1 } : State).targets.length ≤ 1 := by
  decide

theorem test_witness_PlacedWordRunsNext :
    dueState.hosts ≠ [] ∧ decode dueState.cfg 0x8C000#20 = .instr .mbXwr := by decide

theorem test_witness_ResetValues : 1 < ({ Config.default with nTargets := 2 } : Config).nTargets := by
  decide

theorem test_witness_LegalAfterReset :
    Instr.wf (.wrAddrl 0xFFFC#16) = true ∧ (Instr.wrAddrl 0xFFFC#16) ≠ .mbXwr ∧
    (Instr.wrAddrl 0xFFFC#16) ≠ .rdCrc := by decide

theorem test_witness_WordsOfSegment :
    2 < (([1, 2, 3, 4, 5, 6, 7, 8, 9] : List Byte).length + 3) / 4 := by decide

theorem test_witness_ComparisonEndsLoad :
    (0x0CFD#16 : Half) = 0x0CFD#16 ∧ (0x0CFC#16 : Half) ≠ 0x0CFD#16 := by decide

/-- V-H8, with another operation behind the load; a `LOADFW` with such a DRAM base. -/
theorem test_witness_MisalignedBaseIsRefused :
    (one idleBlock 0).due = none ∧ (0x3FFE0002#32).extractLsb' 0 2 ≠ 0#2 ∧
    (withScript (one idleBlock 0)
      (loadSegWithin Config.default 0 0x3FFE0002#32 [0x01] 1 ++ [.poll 0, .poll 1])).mover =
      some (⟨loadSegWithin Config.default 0 0x3FFE0002#32 [0x01] 1 ++ [.poll 0, .poll 1], none⟩, 0) ∧
    (withScript (one idleBlock 0) (loadFw Config.default 0 0x3FFE0002#32 [] 0#32 [] ++ [.poll 1])).mover =
      some (⟨loadFw Config.default 0 0x3FFE0002#32 [] 0#32 [] ++ [.poll 1], none⟩, 0) ∧
    (one idleBlock 0).targets[0]? = some ⟨idleBlock, 0⟩ ∧ idleBlock.fault = none ∧
    idleBlock.refused = none := by decide

/-- A stand-in whose polls end at once; the value read back right and wrong, bases aligned and not (V-H8,
V-H9, V-H11). -/
theorem test_witness_LoadAgainstStandIn :
    ((fun _ => 0xD0FA#16 : TxWord → Half) (encode Config.default .rdCtrl)).getLsbD
      Config.default.bitBusy.val = false ∧
    (0x3FFE0000#32).extractLsb' 0 2 = 0#2 ∧ (0x3FFE0002#32).extractLsb' 0 2 ≠ 0#2 ∧
    (loadSegTransactions Config.default 0 0x3FFE0000#32 [0x12, 0x34, 0x56, 0x78]).length +
      (loadSegTransactions Config.default 0 0x40000000#32 []).length ≤ 12 ∧
    0xD0FA#16 = localCrc Config.default (wordsOf [0x12, 0x34, 0x56, 0x78]) ∧
    0xD0FA#16 ≠ localCrc Config.default (wordsOf [0xAA, 0xBB, 0xCC, 0xDD]) := by decide +kernel

/-- The load of V-H5' by the second agent, to target 0, while the first agent drives target 1, which has a
word in flight: the segment ends at the top of the space. -/
def topLoad (first : List HostOp) : State :=
  { dueState with
    hosts := [⟨first, none⟩,
      ⟨loadSegWithin dueState.cfg 0 0xFFFFFFFC#32 [0xAA, 0xBB, 0xCC, 0xDD] 2 ++ [.poll 0, .poll 0], none⟩] }

theorem test_witness_LoadSegIsCorrect :
    (topLoad [.poll 1]).Inv ∧ (topLoad [.poll 1]).cfg.wf = true ∧
    (topLoad [.poll 1]).targets[0]? = some ⟨idleBlock, 0⟩ ∧
    idleBlock.fault = none ∧ idleBlock.refused = none ∧ idleBlock.busy = false ∧
    (topLoad [.poll 1]).hosts[1]? = some ⟨loadSegWithin (topLoad [.poll 1]).cfg 0 0xFFFFFFFC#32
      [0xAA, 0xBB, 0xCC, 0xDD] 2 ++ [.poll 0, .poll 0], none⟩ ∧
    (∀ j h op, j ≠ 1 → (topLoad [.poll 1]).hosts[j]? = some h → op ∈ h.script → op.target ≠ 0) ∧
    (0xFFFFFFFC#32).extractLsb' 0 2 = 0#2 ∧
    (0xFFFFFFFC#32).toNat + 4 * (wordsOf [0xAA, 0xBB, 0xCC, 0xDD]).length ≤ 2 ^ 32 ∧
    (∀ i, i < (wordsOf [0xAA, 0xBB, 0xCC, 0xDD]).length →
      tmemValid dueState.cfg (0xFFFFFFFC#32 + BitVec.ofNat 32 (4 * i)) = true) := by
  refine ⟨⟨dueState_inv.count, dueState_inv.addressed, dueState_inv.blocks⟩, by decide, by decide,
    by decide, by decide, by decide, rfl, ?_, by decide, by decide +kernel, by decide +kernel⟩
  intro j h op hj hh hop
  rcases j with _ | _ | j
  · obtain rfl : h = ⟨[.poll 1], none⟩ := by simpa [topLoad] using hh.symm
    obtain rfl : op = .poll 1 := by simpa using hop
    decide
  · exact absurd rfl hj
  · simp [topLoad] at hh

/-- The first clause has a run: an agent at the end of an empty load's comparison has come to what follows
it. The third has one with no other agent at work. -/
theorem test_witness_LoadSegIsCorrect_clauses :
    (∃ u, runSteps 5 (withScript (one idleBlock 0) (loadSeg Config.default 0 4#32 [])) = .next u ∧
      u.hosts[0]? = some ⟨[], some .ok⟩) ∧
    (∀ j h, j ≠ 1 → (topLoad []).hosts[j]? = some h → h.script = []) := by
  refine ⟨⟨_, rfl, by decide +kernel⟩, ?_⟩
  intro j h hj hh
  rcases j with _ | _ | j
  · obtain rfl : h = ⟨[], none⟩ := by simpa [topLoad] using hh.symm
    rfl
  · exact absurd rfl hj
  · simp [topLoad] at hh

theorem test_witness_CheckBeforeTouch :
    blobCrcOk Config.default.blobSeed [0x00] = .err .outOfBounds ∧
    blobCrcOk Config.default.blobSeed [0x00, 0x00, 0x00, 0x00] = .ok := by decide +kernel

end Sys2Proof.Tests
end

section
/-! PROOFS. The scope of the model (00_scope.md): when an engine is due and how a pending commit comes
nearer, how the host agents interleave, and what a step does with the word that is issued. -/

namespace Sys2Proof.Machine

/-! ### When an engine is due (R8, R104) -/

/-- An engine is due when its target is busy without a mark and its wait is over. -/
theorem Target.due_iff (t : Target) :
    t.due = true ↔
      t.block.busy = true ∧ t.block.fault = none ∧ t.block.refused = none ∧ t.wait = 0 := by
  simp [Target.due, Block.commitEnabled, Block.stopped_eq_false_iff, and_assoc]

/-- A target with an engine to commit makes the machine's first due engine one no later in the list. -/
theorem due_le {s : State} {k : Nat} {x : Target} (hx : s.targets[k]? = some x)
    (hd : x.due = true) : ∃ j, j ≤ k ∧ s.due = some j := by
  cases hdue : s.due with
  | none => exact absurd hd (by simp [due_none hdue x (List.mem_of_getElem? hx)])
  | some j =>
    obtain ⟨_, _, hbefore⟩ := List.findIdx?_eq_some_iff_getElem.mp hdue
    obtain ⟨hk, rfl⟩ := List.getElem?_eq_some_iff.mp hx
    exact ⟨j, Nat.le_of_not_lt fun hlt => hbefore k hlt hd, rfl⟩

/-- Both halves stand in a word put together from them. -/
theorem joinHalves_eq_some {hi lo : Option Half} {w : Word} (h : joinHalves hi lo = some w) :
    ∃ v l, hi = some v ∧ lo = some l ∧ w = v ++ l := by
  cases hi <;> cases lo <;> cases h
  exact ⟨_, _, rfl, rfl, rfl⟩

/-- The pointer of a record in the invariant is word aligned (R27 a, R36). -/
theorem Block.Inv.wordAligned_pointer {c : Config} {b : Block} {a : Word} (hb : b.Inv c)
    (ha : b.pointer? = some a) : wordAligned a = true := by
  obtain ⟨ah, al, -, hal, rfl⟩ := joinHalves_eq_some ha
  exact wordAligned_append ah (hb.aligned al hal)

/-- The commit of a word in flight succeeds in the invariant (R27 b, R104). -/
theorem Block.Inv.commit_ok_of_busy {c : Config} {b : Block} (hb : b.Inv c) (h : b.busy = true) :
    ∃ b', commit c b = .ok b' := by
  obtain ⟨a, d, ha, hd, hv⟩ := hb.inFlight h
  exact ⟨_, commit_of ha hd (by simp [writable, hb.wordAligned_pointer ha, hv])⟩

/-- With an engine due whose commit succeeds, the step is that commit, a step having passed for every
other target. -/
theorem step_of_commit {s : State} {k : Nat} {x : Target} {b : Block} (hdue : s.due = some k)
    (hx : s.targets[k]? = some x) (hb : commit s.cfg x.block = .ok b) :
    step s = .next { s with targets := (s.targets.map Target.tick).set k ⟨b, 0⟩ } := by
  simp [step, hdue, engineMove, hx, hb]

/-- Settles O32: a step of the engine is due exactly under R104's condition, and in the invariant its
commit cannot fail. -/
theorem engineStep : Obligations.EngineStep := by
  refine ⟨fun s k hdue => ?_, fun s k x hx hb hf hr hw => ?_, fun s k x hinv hdue hx => ?_⟩
  · obtain ⟨t, ht, hd⟩ := due_some hdue
    exact ⟨t, ht, t.due_iff.mp hd⟩
  · exact due_le hx (x.due_iff.mpr ⟨hb, hf, hr, hw⟩)
  · obtain ⟨t, ht, hd⟩ := due_some hdue
    obtain rfl : x = t := Option.some.inj (hx.symm.trans ht)
    obtain ⟨b, hb⟩ := (hinv.blocks x (List.mem_of_getElem? hx)).commit_ok_of_busy (x.due_iff.mp hd).1
    exact ⟨b, hb, step_of_commit hdue hx hb⟩

/-! ### How long a word stays in flight (R8, R41) -/

/-- `MB.XWR` on a target without a word in flight leaves it so, or accepts the word (R97). -/
theorem execMbXwr_next {s u : State} {t : Target} (h : exec .mbXwr s = .next u)
    (ht : s.target? = some t) (hb : t.block.busy = false) :
    u = s.noReply ∨ (∃ f, u = s.takeFault t f) ∨ u = s.acceptWord t := by
  obtain ⟨x, hx, hcases⟩ := prologue_next h
  obtain rfl : x = t := Option.some.inj (hx.symm.trans ht)
  obtain ⟨-, hu⟩ | ⟨-, hbusy, -⟩ | ⟨-, -, hrule⟩ := hcases
  · exact .inl hu
  · exact absurd hbusy (by simp [hb])
  · split at hrule
    · exact .inr (.inl ⟨_, by cases hrule; rfl⟩)
    · split at hrule
      · exact .inr (.inl ⟨_, by cases hrule; rfl⟩)
      · split at hrule
        · exact .inr (.inr (by cases hrule; rfl))
        · exact .inr (.inl ⟨_, by cases hrule; rfl⟩)

/-- The addressed target of a state whose targets are `s`'s with the addressed one replaced. -/
theorem target?_of_set {s u : State} {t t' : Target} (ht : s.target? = some t)
    (hsel : u.sel = s.sel) (hu : u.targets = s.targets.set s.sel t') : u.target? = some t' := by
  simp [State.target?, hsel, hu, State.sel_lt_of_target? ht]

/-- The word that raises `busy` takes the wait of the run (R97, log 4). -/
theorem wait_of_accepted {s u : State} {t t' : Target} (h : exec .mbXwr s = .next u)
    (ht : s.target? = some t) (ht' : u.target? = some t') (hb : t.block.busy = false)
    (hb' : t'.block.busy = true) : t'.wait = s.nextWait := by
  obtain rfl | ⟨f, rfl⟩ | rfl := execMbXwr_next h ht hb
  · obtain rfl : t = t' := Option.some.inj (ht.symm.trans ht')
    exact absurd hb' (by simp [hb])
  · rw [State.takeFault_eq, target?_of_set ht (State.complete_sel ..) (State.complete_targets ..)] at ht'
    obtain rfl := Option.some.inj ht'
    exact absurd hb' (by simp [hb])
  · rw [target?_of_set ht (State.acceptWord_sel s t) (State.acceptWord_targets s t)] at ht'
    obtain rfl := Option.some.inj ht'
    rfl

/-- While a word is in flight an instruction can only mark the target (R90 step 3). -/
theorem Effect.of_busy {i : Instr} {c : Config} {t t' : Target} (e : Effect i c t t')
    (hb : t.block.busy = true) : t' = t ∨ t'.block.stopped = true := by
  cases e with
  | same => exact .inl rfl
  | fault f | refused r => exact .inr (by simp [Block.stopped])
  | crcReset _ _ h | addrh _ _ _ h | addrl _ _ _ _ h | datah _ _ _ h | datal _ _ _ h
  | accept _ _ _ _ _ h => exact absurd hb (by simp [h])

/-- A step with a target's commit still to wait for passes for that target, or marks it. -/
theorem step_of_waiting {s u : State} {k : Nat} {x : Target} (h : step s = .next u)
    (hx : s.targets[k]? = some x) (hb : x.block.busy = true) (hw : 0 < x.wait) :
    ∃ x', u.targets[k]? = some x' ∧ (x' = x.tick ∨ x'.block.stopped = true) := by
  have hxt : (s.targets.map Target.tick)[k]? = some x.tick := by simp [hx]
  rcases step_next h with ⟨j, hdue, h⟩ | ⟨-, h⟩
  · obtain ⟨t, b, ht, -, rfl⟩ := engineMove_next h
    have hjk : j ≠ k := by
      rintro rfl
      obtain ⟨y, hy, hd⟩ := due_some hdue
      obtain rfl : x = y := Option.some.inj (hx.symm.trans hy)
      have hzero := (x.due_iff.mp hd).2.2.2
      omega
    exact ⟨_, (List.getElem?_set_ne hjk).trans hxt, .inl rfl⟩
  · obtain ⟨-, hu | ⟨a, n, op, rest, j, t, t', -, -, -, ht, hu, heffect⟩⟩ := hostMove_targets h
    · exact ⟨_, by rw [hu]; exact hxt, .inl rfl⟩
    · by_cases hjk : j = k
      · subst hjk
        obtain rfl : x.tick = t := Option.some.inj (hxt.symm.trans ht)
        have hlt := (List.getElem?_eq_some_iff.mp ht).1
        refine ⟨t', by rw [hu, List.getElem?_set_self hlt], ?_⟩
        obtain ⟨r, -, rfl⟩ | ⟨i, w, -, -, e⟩ := heffect
        · exact .inr (by simp [Block.stopped])
        · exact e.of_busy hb
      · exact ⟨_, by rw [hu, List.getElem?_set_ne hjk]; exact hxt, .inl rfl⟩

/-- Settles O34: the wait is the run's when the word is accepted, and runs down by one with every step
that neither commits the word nor marks its target. -/
theorem waitRunsDown : Obligations.WaitRunsDown := by
  refine ⟨fun s u t t' => wait_of_accepted, fun s u k x hx hb hf hr h => ⟨fun hw => ?_, fun hw => ?_⟩⟩
  · obtain ⟨x', hx', rfl | hs⟩ := step_of_waiting h hx hb hw
    · exact ⟨_, hx', .inl ⟨rfl, rfl⟩⟩
    · refine ⟨x', hx', .inr ?_⟩
      by_contra hnone
      exact absurd hs (by simp [(Block.stopped_eq_false_iff _).mpr (by simpa using hnone)])
  · exact due_le hx (x.due_iff.mpr ⟨hb, hf, hr, hw⟩)

/-! ### The host agents (R8, R152) -/

/-- An instruction leaves every agent alone. -/
theorem exec_hosts {i : Instr} {s u : State} (h : exec i s = .next u) : u.hosts = s.hosts := by
  obtain ⟨_, _, e⟩ := exec_next h
  exact e.hosts

/-- A transaction word at the registers leaves every agent alone. -/
theorem issue_hosts {s u : State} {k : Nat} {w : TxWord} (h : issue k w s = .next u) :
    u.hosts = s.hosts := by
  obtain ⟨t, -, ⟨-, rfl⟩ | ⟨-, i, -, hi⟩ | ⟨-, r, -, rfl⟩⟩ := issue_next h
  · rfl
  · exact (exec_hosts hi).trans (s.select_hosts k)
  · rfl

/-- Likewise for a refusal before any transaction. -/
theorem refuseBefore_hosts {s u : State} {k : Nat} {r : Refuse} (h : refuseBefore k r s = .next u) :
    u.hosts = s.hosts := by
  obtain ⟨t, -, ⟨-, rfl⟩ | ⟨-, rfl⟩⟩ := refuseBefore_next h <;> rfl

/-- A move of the hosts changes no agent but the one that moves. -/
theorem hostMove_hosts {s u : State} (h : hostMove s = .next u) :
    u.hosts = s.hosts ∨ ∃ a n, s.mover = some (a, n) ∧ ∃ a', u.hosts = s.hosts.set n a' := by
  rcases hostMove_next h with rfl | ⟨a, n, hm, ⟨k, r, more, rest, v, -, hv, rfl⟩ | ⟨k, w, v, -, hv, rfl⟩⟩
  · exact .inl rfl
  · exact .inr ⟨a, n, hm, _, by rw [State.hostLearns_hosts, refuseBefore_hosts hv, State.takeTurn_hosts]⟩
  · exact .inr ⟨a, n, hm, _, by rw [State.hostLearns_hosts, issue_hosts hv, State.takeTurn_hosts]⟩

/-- The agent that moves is the one the turn picks among those that are ready. -/
theorem mover_eq_getElem? (s : State) :
    s.mover = s.readyHosts[s.nextTurn % s.readyHosts.length]? := by
  unfold State.mover
  split
  · next h => simp [h]
  · next p h => simp [h, Nat.mod_one]
  · next p q rest h => simp [h]

/-- Settles O45: a step's one change of an agent is the mover's, and the turn that is a ready agent's
place among those that are ready makes it move. -/
theorem hostAgentsInterleave : Obligations.HostAgentsInterleave := by
  refine ⟨fun s u h => ?_, fun s n h hn hne => ?_⟩
  · rcases step_next h with ⟨k, -, h⟩ | ⟨hdue, h⟩
    · obtain ⟨t, b, -, -, rfl⟩ := engineMove_next h
      exact .inl rfl
    · obtain hu | ⟨a, n, hm, hu⟩ := hostMove_hosts h
      · exact .inl hu
      · exact .inr ⟨a, n, hdue, hm, (mover_some hm).1, hu⟩
  · have hmem : (h, n) ∈ s.readyHosts := List.mem_filter.mpr
      ⟨List.mem_zipIdx_iff_getElem?.mpr hn, by simp [HostAgent.ready, hne]⟩
    obtain ⟨turn, hlt, hturn⟩ := List.mem_iff_getElem.mp hmem
    refine ⟨turn, ?_⟩
    calc State.mover { s with turns := turn :: s.turns }
        = s.readyHosts[turn % s.readyHosts.length]? := mover_eq_getElem? _
      _ = some (h, n) := by rw [Nat.mod_eq_of_lt hlt, List.getElem?_eq_getElem hlt, hturn]

/-! ### An instruction on a missing or a stopped target (R3, R24, R90) -/

/-- The prologue refuses a target the machine does not have. -/
theorem prologue_missing {s : State} {m : Mnemonic} (rule : Target → Host.Outcome State Fault Refusal)
    (ht : s.target? = none) : prologue s m rule = .refused (.noSuchTarget s.sel) := by
  simp [prologue, ht]

/-- Every instruction refuses a target the machine does not have (log 11). -/
theorem exec_missing {s : State} (i : Instr) (ht : s.target? = none) :
    exec i s = .refused (.noSuchTarget s.sel) := by
  cases i with
  | wrAddrl v =>
    simp only [exec, execWrAddrl]
    split
    · exact prologue_missing _ ht
    · simp [ht]
  | _ => exact prologue_missing _ ht

/-- Every instruction on a stopped run keeps its state (R90 step 1). -/
theorem exec_stopped {s : State} {t : Target} (i : Instr) (ht : s.target? = some t)
    (hs : t.block.stopped = true) : exec i s = .next s.noReply := by
  cases i with
  | wrAddrl v =>
    simp only [exec, execWrAddrl]
    split
    · exact prologue_stopped _ ht hs
    · simp [ht, hs]
  | _ => exact prologue_stopped _ ht hs

/-- Settles O46: a target number not below the number of targets selects no register set. -/
theorem missingTargetIsRefused : Obligations.MissingTargetIsRefused := by
  refine ⟨fun s k w hk => ?_, fun s i hsel => exec_missing i (List.getElem?_eq_none hsel)⟩
  simp [issue, List.getElem?_eq_none hk]

/-! ### A step runs the decoded instruction (R8, R90) -/

/-- A word that decodes to an instruction runs it, also where the target is missing or stopped: the
instruction's own prologue then does what the issue of the word does. -/
theorem issue_of_instr {s : State} {k : Nat} {w : TxWord} {i : Instr}
    (hd : decode s.cfg w = .instr i) : issue k w s = exec i (s.select k) := by
  unfold issue
  split
  · next ht => exact (exec_missing i ht).symm
  · next t ht =>
    split
    · next hs => exact (exec_stopped i ht hs).symm
    · rw [hd]

/-- Two changes that agree on the next state give the same outcome. -/
theorem mapNext_congr {f g : State → State} {o : Host.Outcome State Fault Refusal}
    (h : ∀ v, o = .next v → f v = g v) : mapNext f o = mapNext g o := by
  cases o with
  | next v => exact congrArg _ (h v rfl)
  | fault r | refused r => rfl

/-- A move of the hosts whose next operation is a transaction issues its word. -/
theorem hostMove_tx {s : State} {k n : Nat} {w : TxWord} {rest : List HostOp}
    {res : Option (HostResult TransferError)} (hm : s.mover = some (⟨.tx k w :: rest, res⟩, n)) :
    hostMove s = mapNext (State.hostLearns ⟨.tx k w :: rest, res⟩ n) (issue k w s.takeTurn) := by
  simp [hostMove, hm, HostAgent.request]

/-- A transaction's agent goes on behind the word, whatever was returned. -/
theorem hostLearns_tx (k n : Nat) (w : TxWord) (rest : List HostOp)
    (res : Option (HostResult TransferError)) (v : State) :
    v.hostLearns ⟨.tx k w :: rest, res⟩ n = { v with hosts := v.hosts.set n ⟨rest, res⟩ } := rfl

/-- Settles O44: with no engine due the step issues the mover's word, and the word's instruction leaves
the agents to the script's own progress. -/
theorem stepRunsDecoded : Obligations.StepRunsDecoded := by
  intro s k n w rest res i hdue hm hd
  have hissue : issue k w s.tick.takeTurn = exec i (s.tick.takeTurn.select k) :=
    issue_of_instr (by simpa using hd)
  simp only [step, hdue, hostMove_tx (s.tick_mover.trans hm), hissue]
  refine mapNext_congr fun v hv => ?_
  rw [hostLearns_tx, exec_hosts hv]
  simp

/-! ### A placed word (log 18) -/

/-- A held engine is not due. -/
theorem Target.hold_due (t : Target) : t.hold.due = false := by
  unfold Target.hold
  split
  · simp [Target.due]
  · next h => simpa using h

/-- No engine is due once a word is placed. -/
theorem placeWord_due (s : State) (w : TxWord) : (s.placeWord w).due = none := by
  simp [State.due, Target.hold_due]

/-- A placed word is the first agent's next operation, and that agent has the next turn. -/
theorem placeWord_mover {s : State} {a : HostAgent} {rest : List HostAgent} (w : TxWord)
    (hh : s.hosts = a :: rest) :
    (s.placeWord w).mover = some (⟨.tx s.sel w :: a.script, a.result⟩, 0) := by
  rw [mover_eq_getElem?]
  simp [State.readyHosts, hh, placeFirst, HostAgent.ready, State.nextTurn, State.placeWord]

/-- Settles O47: the placed word is the mover's with no engine due, so the step runs it and takes it
from the script again. -/
theorem placedWordRunsNext : Obligations.PlacedWordRunsNext := by
  intro s w i hne hd
  obtain ⟨a, rest, hh⟩ := List.exists_cons_of_ne_nil hne
  rw [stepRunsDecoded _ _ _ _ _ _ i (placeWord_due s w) (placeWord_mover w hh) hd]
  simp [hh, placeFirst]

end Sys2Proof.Machine
end

section
/-! PROOFS. The state (10_state.md): what a step can do to the targets, the invariant of R27, what
changes each part of a record, and the values after reset. -/

namespace Sys2Proof.Machine

/-! ### What a step does to the targets (R8, R24) -/

/-- The change a step makes on target `k`, a step having passed for it: its engine is the due one and
commits, or, with none due, the moving agent's next operation is addressed to it and is refused or runs
the instruction its word decodes to. -/
inductive StepOn (s : State) (k : Nat) (x : Target) : Target → Prop where
  | commit (b : Block) (hdue : s.due = some k) (henabled : x.block.commitEnabled = true)
      (h : commit s.cfg x.block = .ok b) : StepOn s k x ⟨b, 0⟩
  | refuse (a : HostAgent) (n : Nat) (op : HostOp) (rest : List HostOp) (r : Refuse)
      (hdue : s.due = none) (hm : s.mover = some (a, n)) (hscript : a.script = op :: rest)
      (hk : op.target = k) (hs : x.block.stopped = false) :
      StepOn s k x { x with block := { x.block with refused := some r } }
  | run (a : HostAgent) (n : Nat) (op : HostOp) (rest : List HostOp) (i : Instr) (x' : Target)
      (hdue : s.due = none) (hm : s.mover = some (a, n)) (hscript : a.script = op :: rest)
      (hk : op.target = k) (e : Effect i s.cfg x x') : StepOn s k x x'

/-- A step keeps the parameters, and passes for every target; beyond that it changes one at most. -/
theorem step_targets {s u : State} (h : step s = .next u) :
    u.cfg = s.cfg ∧
    (u.targets = s.targets.map Target.tick ∨
      ∃ k x x', (s.targets.map Target.tick)[k]? = some x ∧
        u.targets = (s.targets.map Target.tick).set k x' ∧ StepOn s k x x') := by
  rcases step_next h with ⟨k, hdue, h⟩ | ⟨hdue, h⟩
  · obtain ⟨t, b, ht, hb, rfl⟩ := engineMove_next h
    obtain ⟨t', ht', hd⟩ := due_some hdue
    obtain rfl : t = t' := Option.some.inj (ht.symm.trans ht')
    have henabled : t.block.commitEnabled = true := (Bool.and_eq_true_iff.mp hd).1
    exact ⟨rfl, .inr ⟨k, t.tick, _, by simp [ht], rfl, .commit b hdue henabled hb⟩⟩
  · obtain ⟨hcfg, hu | ⟨a, n, op, rest, k, t, t', hm, hsc, hk, ht, hu, he⟩⟩ := hostMove_targets h
    · exact ⟨hcfg, .inl hu⟩
    · refine ⟨hcfg, .inr ⟨k, t, t', ht, hu, ?_⟩⟩
      obtain ⟨r, hs, rfl⟩ | ⟨i, w, -, -, e⟩ := he
      · exact .refuse a n op rest r hdue hm hsc hk hs
      · exact .run a n op rest i t' hdue hm hsc hk e

/-- A step keeps the record of a target when none of the changes it can make on that target does
otherwise. -/
theorem step_keeps_block {s u : State} {j : Nat} {x : Target} (h : step s = .next u)
    (hx : s.targets[j]? = some x) (hkeep : ∀ x', StepOn s j x.tick x' → x'.block = x.block) :
    ∃ x', u.targets[j]? = some x' ∧ x'.block = x.block := by
  have hxt : (s.targets.map Target.tick)[j]? = some x.tick := by simp [hx]
  obtain ⟨-, hu | ⟨k, t, t', ht, hu, hon⟩⟩ := step_targets h
  · exact ⟨x.tick, hu ▸ hxt, rfl⟩
  · by_cases hkj : k = j
    · subst hkj
      obtain rfl : x.tick = t := Option.some.inj (hxt.symm.trans ht)
      exact ⟨t', by rw [hu, List.getElem?_set_self (List.getElem?_eq_some_iff.mp ht).1], hkeep t' hon⟩
    · exact ⟨x.tick, by rw [hu, List.getElem?_set_ne hkj, hxt], rfl⟩

/-- A stopped run ignores every instruction (R90 step 1). -/
theorem Effect.of_stopped {i : Instr} {c : Config} {t t' : Target} (e : Effect i c t t')
    (hs : t.block.stopped = true) : t' = t := by
  cases e with
  | same => rfl
  | fault _ h | refused _ h | crcReset _ h | addrh _ _ h | addrl _ _ _ h | datah _ _ h | datal _ _ h
  | accept _ _ _ _ h => exact absurd hs (by simp [h])

/-- No step acts on a stopped run (R23). -/
theorem StepOn.of_stopped {s : State} {k : Nat} {x x' : Target} (hon : StepOn s k x x')
    (hs : x.block.stopped = true) : x' = x := by
  cases hon with
  | commit _ _ henabled => exact absurd henabled (by simp [Block.commitEnabled, hs])
  | refuse _ _ _ _ _ _ _ _ _ h => exact absurd hs (by simp [h])
  | run _ _ _ _ _ _ _ _ _ _ e => exact e.of_stopped hs

/-- Settles O30: whatever a step could do to a marked target asks for one without a mark. -/
theorem stoppedRunIsKept : Obligations.StoppedRunIsKept := by
  refine ⟨⟨rfl, rfl⟩, fun s u k x hx hmark h => step_keeps_block h hx fun x' hon => ?_⟩
  have hs : x.block.stopped = true := by
    by_contra hne
    obtain ⟨hf, hr⟩ := (Block.stopped_eq_false_iff _).mp (Bool.eq_false_of_not_eq_true hne)
    exact hmark.elim (· hf) (· hr)
  rw [hon.of_stopped hs, Target.tick_block]

/-- Settles O38: the target a step acts on is the due one, or the one the moving agent addresses. -/
theorem targetsAreIndependent : Obligations.TargetsAreIndependent := by
  refine fun s u j x h hx hnotdue hother => step_keeps_block h hx fun x' hon => ?_
  cases hon with
  | commit _ hdue => exact absurd hdue hnotdue
  | refuse a n op rest _ hdue hm hscript hk | run a n op rest _ _ hdue hm hscript hk =>
    exact absurd hk (hother a n op rest hdue hm hscript)

/-! ### The invariant of R27 -/

/-- A record with the memory of one in the invariant is in it when its own halves and marks are as R27
asks. -/
theorem Block.Inv.of_tmem_eq {c : Config} {b b' : Block} (hb : b.Inv c) (hm : b'.tmem = b.tmem)
    (haligned : ∀ v, b'.addrLsw = some v → v.aligned = true)
    (hflight : b'.busy = true →
      ∃ a d, b'.pointer? = some a ∧ b'.dataWord? = some d ∧ tmemValid c a = true)
    (hmark : b'.fault = none ∨ b'.refused = none) : b'.Inv c where
  memory := hm ▸ hb.memory
  aligned := haligned
  inFlight := hflight
  valid := hm ▸ hb.valid
  wholeWords := hm ▸ hb.wholeWords
  oneMark := hmark

/-- Writing a register with no word in flight keeps the invariant, a lower address half being
aligned. -/
theorem Block.Inv.set {c : Config} {b : Block} {v : Half} (r : Reg) (hb : b.Inv c)
    (hidle : b.busy = false) (hv : r = .addrLsw → v.aligned = true) : (b.set r (some v)).Inv c := by
  refine hb.of_tmem_eq (b.set_tmem r _) (fun l hl => ?_) (by simp [hidle]) (by simpa using hb.oneMark)
  by_cases hr : r = .addrLsw
  · subst hr
    obtain rfl : v = l := Option.some.inj hl
    exact hv rfl
  · rw [← Block.get_addrLsw, Block.get_set_ne b r _ _ (Ne.symm hr)] at hl
    exact hb.aligned l hl

/-- A refusal on a run that was not stopped keeps the invariant. -/
theorem Block.Inv.refuse {c : Config} {b : Block} (r : Refuse) (hb : b.Inv c)
    (hs : b.stopped = false) : ({ b with refused := some r } : Block).Inv c :=
  hb.of_tmem_eq rfl hb.aligned hb.inFlight (.inl ((Block.stopped_eq_false_iff b).mp hs).1)

/-- Every instruction keeps the invariant of the addressed record. -/
theorem Effect.inv {i : Instr} {c : Config} {t t' : Target} (e : Effect i c t t')
    (hb : t.block.Inv c) : t'.block.Inv c := by
  cases e with
  | same => exact hb
  | fault f hs =>
    exact hb.of_tmem_eq rfl hb.aligned hb.inFlight (.inr ((Block.stopped_eq_false_iff _).mp hs).2)
  | refused r hs => exact hb.refuse r hs
  | crcReset _ _ hidle => exact hb.set .crc hidle nofun
  | addrh _ _ _ hidle => exact hb.set .addrMsw hidle nofun
  | addrl _ _ hv _ hidle => exact hb.set .addrLsw hidle fun _ => hv
  | datah _ _ _ hidle => exact hb.set .dataMsw hidle nofun
  | datal _ _ _ hidle => exact hb.set .dataLsw hidle nofun
  | accept a d _ _ _ _ ha hd hv =>
    exact hb.of_tmem_eq rfl hb.aligned (fun _ => ⟨a, d, ha, hd, hv⟩) hb.oneMark

/-- The advanced pointer's lower half is aligned when the pointer was (R19, R27 a). -/
theorem nextPointer_aligned {a : Word} {v : Half} (ha : wordAligned a = true)
    (hv : (nextPointer a).map lowerHalf = some v) : v.aligned = true := by
  unfold nextPointer at hv
  split at hv
  · cases hv
  · cases hv
    exact lowerHalf_aligned ha

/-- A store at an aligned address writes both an address and the start of that address's word, or it
changes neither. -/
theorem Memory.read_writeWord_cases (m : Memory) {a : Word} (d : Word) (ha : wordAligned a = true)
    (x : Nat) :
    (x - x % 4 = a.toNat ∧ ((m.writeWord a d).read x).isSome = true ∧
      ((m.writeWord a d).read (x - x % 4)).isSome = true) ∨
    ((m.writeWord a d).read x = m.read x ∧
      (m.writeWord a d).read (x - x % 4) = m.read (x - x % 4)) := by
  have hmod := (wordAligned_bound ha).1
  by_cases hin : x - x % 4 = a.toNat
  · exact .inl ⟨hin, m.read_writeWord_inside d (by omega), m.read_writeWord_inside d (by omega)⟩
  · exact .inr ⟨m.read_writeWord_other d (by omega), m.read_writeWord_other d (by omega)⟩

/-- The engine's commit keeps the invariant (R104). -/
theorem Block.Inv.commit {c : Config} {b b' : Block} (hb : b.Inv c) (h : commit c b = .ok b') :
    b'.Inv c := by
  obtain ⟨a, d, -, -, hw, rfl⟩ := commit_ok h
  obtain ⟨ha, hvalid⟩ := Bool.and_eq_true_iff.mp hw
  refine ⟨Memory.writeWord_wf hb.memory ha d, fun v => nextPointer_aligned ha, fun hbusy => ?_,
    fun x hx => ?_, fun x => ?_, hb.oneMark⟩
  · simp at hbusy
  · rw [Block.committed_tmem] at hx
    obtain ⟨hstart, -, -⟩ | ⟨hread, -⟩ := b.tmem.read_writeWord_cases d ha x
    · simpa [hstart] using hvalid
    · exact hb.valid x (hread ▸ hx)
  · rw [Block.committed_tmem]
    obtain ⟨-, hread, hread0⟩ | ⟨hread, hread0⟩ := b.tmem.read_writeWord_cases d ha x
    · rw [hread, hread0]
    · rw [hread, hread0, hb.wholeWords x]

/-- A step keeps the invariant of the record it acts on. -/
theorem StepOn.inv {s : State} {k : Nat} {x x' : Target} (hon : StepOn s k x x')
    (hb : x.block.Inv s.cfg) : x'.block.Inv s.cfg := by
  cases hon with
  | commit b _ _ h => exact hb.commit h
  | refuse _ _ _ _ r _ _ _ _ hs => exact hb.refuse r hs
  | run _ _ _ _ _ _ _ _ _ _ e => exact e.inv hb

/-- A transaction that is not refused by the machine leaves a target of the machine addressed. -/
theorem issue_sel_lt {s u : State} {k : Nat} {w : TxWord} (h : issue k w s = .next u) :
    u.sel < s.targets.length := by
  obtain ⟨t, ht, hcases⟩ := issue_next h
  have hsel : u.sel = k := by
    obtain ⟨-, rfl⟩ | ⟨-, i, -, hi⟩ | ⟨-, r, -, rfl⟩ := hcases
    · rfl
    · obtain ⟨_, _, e⟩ := exec_next hi
      exact e.sel
    · rfl
  exact hsel ▸ (List.getElem?_eq_some_iff.mp ht).1

/-- A refusal before any transaction leaves a target of the machine addressed. -/
theorem refuseBefore_sel_lt {s u : State} {k : Nat} {r : Refuse} (h : refuseBefore k r s = .next u) :
    u.sel < s.targets.length := by
  obtain ⟨t, ht, hcases⟩ := refuseBefore_next h
  have hsel : u.sel = k := by
    obtain ⟨-, rfl⟩ | ⟨-, rfl⟩ := hcases <;> rfl
  exact hsel ▸ (List.getElem?_eq_some_iff.mp ht).1

/-- A step leaves a target of the machine addressed. -/
theorem step_sel_lt {s u : State} (h : step s = .next u) (hsel : s.sel < s.targets.length) :
    u.sel < s.targets.length := by
  rcases step_next h with ⟨k, -, h⟩ | ⟨-, h⟩
  · obtain ⟨t, b, -, -, rfl⟩ := engineMove_next h
    exact hsel
  · obtain rfl | ⟨a, n, -, ⟨k, r, more, rest, v, -, hv, rfl⟩ | ⟨k, w, v, -, hv, rfl⟩⟩ := hostMove_next h
    · exact hsel
    · simpa using refuseBefore_sel_lt hv
    · simpa using issue_sel_lt hv

/-- Settles O35: a step changes one record at most, and by a commit, a refusal or an instruction, each of
which keeps the invariant. -/
theorem stepKeepsInvariant : Obligations.StepKeepsInvariant := by
  intro s u hinv h
  obtain ⟨hcfg, htargets⟩ := step_targets h
  have hlen : u.targets.length = s.targets.length := by
    obtain hu | ⟨k, x, x', -, hu, -⟩ := htargets <;> simp [hu]
  have hticked : ∀ t ∈ s.targets.map Target.tick, t.block.Inv s.cfg := by
    intro t ht
    obtain ⟨y, hy, rfl⟩ := List.mem_map.mp ht
    exact hinv.blocks y hy
  refine ⟨by rw [hlen, hcfg, hinv.count], hlen ▸ step_sel_lt h hinv.addressed, fun t ht => ?_⟩
  rw [hcfg]
  obtain hu | ⟨k, x, x', hx, hu, hon⟩ := htargets
  · exact hticked t (hu ▸ ht)
  · obtain ht | rfl := List.mem_or_eq_of_mem_set (hu ▸ ht)
    · exact hticked t ht
    · exact hon.inv (hticked x (List.mem_of_getElem? hx))

/-! ### The machine's own faults (R27, R104) -/

/-- The prologue raises no fault of the machine of its own. -/
theorem prologue_ne_fault {s : State} {m : Mnemonic} {f : Fault}
    {rule : Target → Host.Outcome State Fault Refusal} (hrule : ∀ t, rule t ≠ .fault f) :
    prologue s m rule ≠ .fault f := by
  unfold prologue
  split
  · simp
  · split
    · simp
    · split
      · simp
      · exact hrule _

/-- No instruction ends in a fault of the machine: the spec's own faults are marks (R143). -/
theorem exec_ne_fault (i : Instr) (s : State) (f : Fault) : exec i s ≠ .fault f := by
  cases i with
  | rdCtrl | rdAddrh | rdAddrl | rdDatah | rdDatal | mbCrcrst | wrAddrh | wrDatah | wrDatal =>
    exact prologue_ne_fault fun t => by simp
  | rdCrc => exact prologue_ne_fault fun t => by split <;> simp
  | mbXwr =>
    refine prologue_ne_fault fun t => ?_
    split
    · simp
    · split
      · simp
      · split <;> simp
  | wrAddrl v =>
    simp only [exec, execWrAddrl]
    split
    · exact prologue_ne_fault fun t => by simp
    · split
      · simp
      · split <;> simp

/-- A transaction word never ends in a fault of the machine. -/
theorem issue_ne_fault (k : Nat) (w : TxWord) (s : State) (f : Fault) : issue k w s ≠ .fault f := by
  unfold issue
  split
  · simp
  · split
    · simp
    · split
      · exact exec_ne_fault _ _ f
      · simp

/-- A refusal before any transaction never ends in a fault of the machine. -/
theorem refuseBefore_ne_fault (k : Nat) (r : Refuse) (s : State) (f : Fault) :
    refuseBefore k r s ≠ .fault f := by
  unfold refuseBefore
  split
  · simp
  · split <;> simp

/-- A change of the next state makes no fault. -/
theorem mapNext_ne_fault {g : State → State} {o : Host.Outcome State Fault Refusal} {f : Fault}
    (h : o ≠ .fault f) : mapNext g o ≠ .fault f := by
  cases o with
  | fault r => exact h
  | next v | refused r => simp [mapNext]

/-- A move of the hosts never ends in a fault of the machine. -/
theorem hostMove_ne_fault (s : State) (f : Fault) : hostMove s ≠ .fault f := by
  unfold hostMove
  split
  · simp
  · split
    · exact mapNext_ne_fault (refuseBefore_ne_fault _ _ _ f)
    · split
      · simp
      · exact mapNext_ne_fault (issue_ne_fault _ _ _ f)

/-- Settles O33: the engine's commit alone could fail, and in the invariant it succeeds. -/
theorem engineNeverFails : Obligations.EngineNeverFails := by
  intro s f hinv
  cases hdue : s.due with
  | none => simpa [step, hdue] using hostMove_ne_fault s.tick f
  | some k =>
    obtain ⟨x, hx, -⟩ := due_some hdue
    obtain ⟨b, -, hstep⟩ := engineStep.2.2 s k x hinv hdue hx
    simp [hstep]

/-! ### What changes each part of a record (R12 to R20, R22) -/

/-- What no refusal changes of a record changes only by the commit of the target's own due engine, or by
the transaction the moving agent addresses to it. -/
theorem step_change {α : Type} {part : Block → α} {s u : State} {k : Nat} {x x' : Target}
    (hpart : ∀ b r, part { b with refused := some r } = part b) (h : step s = .next u)
    (hx : s.targets[k]? = some x) (hx' : u.targets[k]? = some x') (hne : part x'.block ≠ part x.block) :
    (s.due = some k ∧ ∃ a d, x.block.pointer? = some a ∧ x'.block = x.block.committed a d) ∨
    ∃ g n w i, s.mover = some (g, n) ∧ g.request s.cfg = some (k, w) ∧ decode s.cfg w = .instr i ∧
      Effect i s.cfg x.tick x' := by
  obtain hkept | ⟨hdue, hcommit⟩ | ⟨r, hr⟩ | ⟨g, n, i, w, hm, hq, hd, e⟩ := step_target h hx hx'
  · exact absurd (congrArg part hkept) hne
  · obtain ⟨a, d, ha, -, -, hb⟩ := commit_ok hcommit
    exact .inl ⟨hdue, a, d, ha, hb⟩
  · exact absurd (hr ▸ hpart x.block r) hne
  · exact .inr ⟨g, n, w, i, hm, hq, hd, e⟩

/-- The register an instruction writes, and the value it writes there (R91 to R96). -/
inductive Writes (c : Config) : Instr → Reg → Half → Prop where
  | crc : Writes c .mbCrcrst .crc c.crcInit
  | addrMsw (v : Half) : Writes c (.wrAddrh v) .addrMsw v
  | addrLsw (v : Half) : Writes c (.wrAddrl v) .addrLsw v
  | dataMsw (v : Half) : Writes c (.wrDatah v) .dataMsw v
  | dataLsw (v : Half) : Writes c (.wrDatal v) .dataLsw v

/-- Writing a register leaves each register alone or is a write of it. -/
theorem Writes.get_set_cases {c : Config} {i : Instr} {q : Reg} {v : Half} (hw : Writes c i q v) (b : Block)
    (r : Reg) : (b.set q (some v)).get r = b.get r ∨
      ∃ v', Writes c i r v' ∧ (b.set q (some v)).get r = some v' := by
  by_cases hr : r = q
  · subst hr
    exact .inr ⟨v, hw, Block.get_set b r _ (by rintro rfl; cases hw)⟩
  · exact .inl (Block.get_set_ne b q r _ hr)

/-- An instruction leaves a register alone, or it writes it. -/
theorem Effect.get_cases {i : Instr} {c : Config} {t t' : Target} (e : Effect i c t t') (r : Reg) :
    t'.block.get r = t.block.get r ∨ ∃ v, Writes c i r v ∧ t'.block.get r = some v := by
  cases e with
  | same => exact .inl rfl
  | fault | refused | accept => exact .inl (by cases r <;> rfl)
  | crcReset hi => exact Writes.get_set_cases (hi ▸ .crc) t.block r
  | addrh v hi => exact Writes.get_set_cases (hi ▸ .addrMsw v) t.block r
  | addrl v hi => exact Writes.get_set_cases (hi ▸ .addrLsw v) t.block r
  | datah v hi => exact Writes.get_set_cases (hi ▸ .dataMsw v) t.block r
  | datal v hi => exact Writes.get_set_cases (hi ▸ .dataLsw v) t.block r

/-- An instruction leaves `busy` alone, or it is the `MB.XWR` that raises it (R18). -/
theorem Effect.busy_cases {i : Instr} {c : Config} {t t' : Target} (e : Effect i c t t') :
    t'.block.busy = t.block.busy ∨ (i = .mbXwr ∧ t'.block.busy = true) := by
  cases e with
  | accept _ _ _ hi => exact .inr ⟨hi, rfl⟩
  | same | fault | refused | crcReset | addrh | addrl | datah | datal => exact .inl (by simp)

/-- No instruction writes target memory (R22). -/
theorem Effect.tmem_eq {i : Instr} {c : Config} {t t' : Target} (e : Effect i c t t') :
    t'.block.tmem = t.block.tmem := by
  cases e <;> simp

/-- A register changes only by the commit of the target's own due engine, or by the moving agent's
transaction to it that writes the register, which then holds the value written. -/
theorem step_get_change {s u : State} {k : Nat} {x x' : Target} (r : Reg) (h : step s = .next u)
    (hx : s.targets[k]? = some x) (hx' : u.targets[k]? = some x')
    (hne : x'.block.get r ≠ x.block.get r) :
    (s.due = some k ∧ ∃ a d, x'.block = x.block.committed a d) ∨
    ∃ g n w i v, s.mover = some (g, n) ∧ g.request s.cfg = some (k, w) ∧
      decode s.cfg w = .instr i ∧ Writes s.cfg i r v ∧ x'.block.get r = some v := by
  obtain ⟨hdue, a, d, -, hb⟩ | ⟨g, n, w, i, hm, hq, hd, e⟩ :=
    step_change (part := (·.get r)) (fun b _ => by cases r <;> rfl) h hx hx' hne
  · exact .inl ⟨hdue, a, d, hb⟩
  · obtain ⟨v, hw, hv⟩ := (e.get_cases r).resolve_left hne
    exact .inr ⟨g, n, w, i, v, hm, hq, hd, hw, hv⟩

/-- Settles O39: memory changes by the due engine's commit alone, which stores one word at the
pointer. -/
theorem onlyCommitStores : Obligations.OnlyCommitStores := by
  intro s u k x x' a h hx hx'
  by_cases hsame : x'.block.tmem = x.block.tmem
  · simp [hsame]
  · obtain ⟨hdue, p, d, hp, hb⟩ | ⟨g, n, w, i, -, -, -, e⟩ :=
      step_change (part := Block.tmem) (fun _ _ => rfl) h hx hx' hsame
    · refine ⟨fun _ ah al hah hal hout => ?_, fun hnotdue => absurd hdue hnotdue⟩
      obtain rfl : ah ++ al = p := by simpa [Block.pointer?, hah, hal, joinHalves] using hp
      rw [hb, Block.committed_tmem, Memory.read_writeWord_other _ _ hout]
    · exact absurd e.tmem_eq hsame

/-- Settles O40: a commit lowers `busy`, and the one instruction that changes it raises it. -/
theorem busyRisesAndFalls : Obligations.BusyRisesAndFalls := by
  intro s u k x x' h hx hx'
  have hchange := step_change (part := Block.busy) (fun _ _ => rfl) h hx hx'
  refine ⟨fun hlow hhigh => ?_, fun hhigh hlow => ?_⟩
  · obtain ⟨-, a, d, -, hb⟩ | ⟨g, n, w, i, hm, hq, hd, e⟩ := hchange (by simp [hlow, hhigh])
    · exact absurd hhigh (by simp [hb])
    · obtain heq | ⟨rfl, -⟩ := e.busy_cases
      · exact absurd heq (by simp [hlow, hhigh])
      · exact ⟨g, n, w, hm, hq, hd⟩
  · obtain ⟨hdue, -⟩ | ⟨g, n, w, i, -, -, -, e⟩ := hchange (by simp [hlow, hhigh])
    · exact hdue
    · obtain heq | ⟨-, hup⟩ := e.busy_cases
      · exact absurd heq (by simp [hlow, hhigh])
      · exact absurd hup (by simp [hlow])

/-- Settles O41: each half is a register with one writing instruction, and the pointer is the two halves
together. -/
theorem pointerMovesOnlyBy : Obligations.PointerMovesOnlyBy := by
  intro s u k x x' h hx hx'
  have hmsw : x'.block.addrMsw ≠ x.block.addrMsw → s.due = some k ∨
      ∃ g n w v, s.mover = some (g, n) ∧ g.request s.cfg = some (k, w) ∧
        decode s.cfg w = .instr (.wrAddrh v) ∧ x'.block.addrMsw = some v := by
    intro hne
    obtain ⟨hdue, -⟩ | ⟨g, n, w, _, v, hm, hq, hd, ⟨⟩, hv⟩ := step_get_change .addrMsw h hx hx' hne
    · exact .inl hdue
    · exact .inr ⟨g, n, w, v, hm, hq, hd, hv⟩
  have hlsw : x'.block.addrLsw ≠ x.block.addrLsw → s.due = some k ∨
      ∃ g n w v, s.mover = some (g, n) ∧ g.request s.cfg = some (k, w) ∧
        decode s.cfg w = .instr (.wrAddrl v) ∧ x'.block.addrLsw = some v := by
    intro hne
    obtain ⟨hdue, -⟩ | ⟨g, n, w, _, v, hm, hq, hd, ⟨⟩, hv⟩ := step_get_change .addrLsw h hx hx' hne
    · exact .inl hdue
    · exact .inr ⟨g, n, w, v, hm, hq, hd, hv⟩
  refine ⟨hmsw, hlsw, fun hne => ?_⟩
  by_cases hsame : x'.block.addrMsw = x.block.addrMsw
  · have hne' : x'.block.addrLsw ≠ x.block.addrLsw := fun heq =>
      hne (by simp [Block.pointer?, hsame, heq])
    exact (hlsw hne').imp_right fun ⟨g, n, w, v, hm, hq, hd, _⟩ => ⟨g, n, w, v, hm, hq, .inr hd⟩
  · exact (hmsw hsame).imp_right fun ⟨g, n, w, v, hm, hq, hd, _⟩ => ⟨g, n, w, v, hm, hq, .inl hd⟩

/-- Settles O42: each half is a register with one writing instruction, and a commit consumes both. -/
theorem dataHalvesChangeOnlyBy : Obligations.DataHalvesChangeOnlyBy := by
  intro s u k x x' h hx hx'
  refine ⟨fun hne => ?_, fun hne => ?_⟩
  · obtain ⟨hdue, a, d, hb⟩ | ⟨g, n, w, _, v, hm, hq, hd, ⟨⟩, hv⟩ :=
      step_get_change .dataMsw h hx hx' hne
    · exact .inl ⟨hdue, by rw [hb, Block.committed_dataMsw]⟩
    · exact .inr ⟨g, n, w, v, hm, hq, hd, hv⟩
  · obtain ⟨hdue, a, d, hb⟩ | ⟨g, n, w, _, v, hm, hq, hd, ⟨⟩, hv⟩ :=
      step_get_change .dataLsw h hx hx' hne
    · exact .inl ⟨hdue, by rw [hb, Block.committed_dataLsw]⟩
    · exact .inr ⟨g, n, w, v, hm, hq, hd, hv⟩

/-- Settles O43: `MB.CRCRST` is the one instruction that writes the accumulator. -/
theorem accumulatorChangesOnlyBy : Obligations.AccumulatorChangesOnlyBy := by
  intro s u k x x' h hx hx' hne
  obtain ⟨hdue, -⟩ | ⟨g, n, w, _, v, hm, hq, hd, ⟨⟩, -⟩ := step_get_change .crc h hx hx' hne
  · exact .inl hdue
  · exact .inr ⟨g, n, w, hm, hq, hd⟩

/-! ### Reset (R25) -/

/-- Every target of a machine after reset holds the reset record. -/
theorem resetWith_targets (c : Config) :
    (State.resetWith c).targets = List.replicate c.nTargets ⟨Block.reset, 0⟩ := rfl

/-- The reset record meets the invariant. -/
theorem Block.reset_inv (c : Config) : Block.reset.Inv c where
  memory := Memory.nil_wf
  aligned := fun _ hv => nomatch hv
  inFlight := fun hbusy => nomatch hbusy
  valid := fun _ hx => nomatch hx
  wholeWords := fun _ => rfl
  oneMark := .inl rfl

/-- A machine after reset under parameters with a target meets the invariant. -/
theorem resetWith_inv {c : Config} (hc : c.wf = true) : (State.resetWith c).Inv where
  count := by simp [State.resetWith]
  addressed := by
    obtain ⟨-, hn⟩ := Bool.and_eq_true_iff.mp hc
    simpa [State.resetWith, Nat.one_le_iff_ne_zero, Nat.pos_iff_ne_zero] using hn
  blocks := fun t ht => by
    rw [resetWith_targets] at ht
    rw [List.eq_of_mem_replicate ht]
    exact Block.reset_inv c

/-- Settles O36: the default parameters are well formed too. -/
theorem resetMeetsInvariant : Obligations.ResetMeetsInvariant :=
  ⟨resetWith_inv (by decide), fun _ => resetWith_inv⟩

/-- Settles O48: every target holds the reset record, and empty memory reads as unwritten. -/
theorem resetValues : Obligations.ResetValues := by
  intro c k hk
  refine ⟨⟨Block.reset, 0⟩, ?_, rfl, rfl, rfl, rfl, rfl, rfl, fun a => ?_, rfl, rfl⟩
  · rw [resetWith_targets, List.getElem?_replicate_of_lt hk]
  · simp [Memory.readWord, Block.reset]

end Sys2Proof.Machine
end

section
/-! PROOFS. The target's memory and addresses (20_memory.md): a read changes no record (R38), and a load
at a misaligned base is refused before its first transaction (R36). -/

namespace Sys2Proof.Machine

/-! ### Reads (R38) -/

/-- From `s` to `u` every record is as it was, but for a fault mark that the addressed target has newly
got, nothing then being returned. -/
def KeepsRecordsButForFault (s u : State) : Prop :=
  u.targets = s.targets ∨
  ∃ t f, s.target? = some t ∧ t.block.fault = none ∧ u.reply = none ∧
    u.targets = s.targets.set s.sel { t with block := { t.block with fault := some f } }

/-- A fault raised on a target that was not stopped changes its mark alone (R143). -/
theorem takeFault_keepsRecordsButForFault {s : State} {t : Target} (f : FaultMark)
    (ht : s.target? = some t) (hs : t.block.stopped = false) :
    KeepsRecordsButForFault s (s.takeFault t f) :=
  .inr ⟨t, f, ht, ((Block.stopped_eq_false_iff _).mp hs).1, rfl, rfl⟩

/-- The prologue itself changes no more than a fault mark (R90). -/
theorem prologue_keepsRecordsButForFault {s u : State} {m : Mnemonic}
    {rule : Target → Host.Outcome State Fault Refusal} (h : prologue s m rule = .next u)
    (hrule : ∀ t, s.target? = some t → t.block.stopped = false → rule t = .next u →
      KeepsRecordsButForFault s u) : KeepsRecordsButForFault s u := by
  obtain ⟨t, ht, ⟨-, rfl⟩ | ⟨hs, -, -, rfl⟩ | ⟨hs, -, hr⟩⟩ := prologue_next h
  · exact .inl s.noReply_targets
  · exact takeFault_keepsRecordsButForFault _ ht hs
  · exact hrule t ht hs hr

/-- A read that returns a draw behind the prologue changes no more than a fault mark (R98, R100 to
R103). -/
theorem prologue_drawReply_keepsRecordsButForFault {s u : State} {m : Mnemonic}
    {f : Target → Half → Half} (h : prologue s m (fun t => .next (s.drawReply (f t))) = .next u) :
    KeepsRecordsButForFault s u :=
  prologue_keepsRecordsButForFault h fun t _ _ hr => by
    obtain rfl : s.drawReply (f t) = u := by simpa using hr
    exact .inl (s.drawReply_targets _)

/-- `RD.CRC` faults on an unwritten accumulator and otherwise writes the record back as it was (R99). -/
theorem execRdCrc_keepsRecordsButForFault {s u : State} (h : execRdCrc s = .next u) :
    KeepsRecordsButForFault s u :=
  prologue_keepsRecordsButForFault h fun t ht hs hr => by
    split at hr
    · obtain rfl : s.takeFault t _ = u := by simpa using hr
      exact takeFault_keepsRecordsButForFault _ ht hs
    · obtain rfl : s.complete t t.block _ = u := by simpa using hr
      exact .inl (by simpa using State.set_target_self ht)

/-- Settles O29: `RD.CRC` reads the accumulator, the other five reads return a draw. -/
theorem readsHaveNoSideEffect : Obligations.ReadsHaveNoSideEffect := by
  intro i s u hi h
  cases i with
  | rdCrc => exact execRdCrc_keepsRecordsButForFault h
  | rdCtrl | rdAddrh | rdAddrl | rdDatah | rdDatal =>
    exact prologue_drawReply_keepsRecordsButForFault h
  | mbCrcrst | mbXwr | wrAddrh | wrAddrl | wrDatah | wrDatal => exact absurd hi (by simp)

/-! ### A load at a misaligned base (R36, R123, R127) -/

/-- A load at a misaligned base is one refusal, with the base's lower half. -/
theorem loadSegWithin_misaligned {base : Word} (hbase : base.extractLsb' 0 2 ≠ 0#2) (c : Config)
    (k : Nat) (data : List Byte) (more : Nat) :
    loadSegWithin c k base data more =
      [.refuse k (.misalignedAddress (base.extractLsb' 0 16)) more] := by
  simp [loadSegWithin, wordAligned, lowerHalf, hbase]

/-- A refusal before any transaction marks a target that was not stopped. -/
theorem refuseBefore_running {s : State} {k : Nat} {t : Target} (r : Refuse)
    (ht : s.targets[k]? = some t) (hs : t.block.stopped = false) :
    refuseBefore k r s = .next ((s.select k).takeRefusal t r) := by
  simp [refuseBefore, ht, hs]

/-- A move of the hosts whose next operation is a refusal makes it. -/
theorem hostMove_refuse {s : State} {k n more : Nat} {r : Refuse} {rest : List HostOp}
    {res : Option (HostResult TransferError)}
    (hm : s.mover = some (⟨.refuse k r more :: rest, res⟩, n)) :
    hostMove s =
      mapNext (State.hostLearns ⟨.refuse k r more :: rest, res⟩ n) (refuseBefore k r s.takeTurn) := by
  simp [hostMove, hm]

/-- With no engine due and the target unmarked, the step makes the mover's refusal: the mark is set,
and the agent goes on behind the refused procedure without a result (log 21). -/
theorem step_refuse {s : State} {k n more : Nat} {r : Refuse} {rest : List HostOp}
    {res : Option (HostResult TransferError)} {x : Target} (hdue : s.due = none)
    (hm : s.mover = some (⟨.refuse k r more :: rest, res⟩, n)) (hx : s.targets[k]? = some x)
    (hs : x.block.stopped = false) :
    ∃ u x', step s = .next u ∧ u.hosts = s.hosts.set n ⟨rest.drop more, none⟩ ∧
      u.targets[k]? = some x' ∧ x'.block = { x.block with refused := some r } := by
  have hxt : s.tick.takeTurn.targets[k]? = some x.tick := by simp [hx]
  have hlt : k < s.targets.length := (List.getElem?_eq_some_iff.mp hx).1
  have hstep : step s = .next (State.hostLearns ⟨.refuse k r more :: rest, res⟩ n
      ((s.tick.takeTurn.select k).takeRefusal x.tick r)) := by
    simp only [step, hdue, hostMove_refuse (s.tick_mover.trans hm), refuseBefore_running r hxt hs,
      mapNext_of_next]
  refine ⟨_, { x.tick with block := { x.block with refused := some r } }, hstep, ?_, ?_, rfl⟩
  · simp [State.takeRefusal_eq, HostAgent.respond]
  · simp [State.takeRefusal_eq, hlt]

/-- A step whose mover stands at a load with a misaligned base, alone or within a procedure. -/
theorem step_loadSegWithin_misaligned {s : State} {k n more : Nat} {x : Target} {base : Word}
    {data : List Byte} {rest : List HostOp} {res : Option (HostResult TransferError)}
    (hdue : s.due = none) (hbase : base.extractLsb' 0 2 ≠ 0#2)
    (hm : s.mover = some (⟨loadSegWithin s.cfg k base data more ++ rest, res⟩, n))
    (hx : s.targets[k]? = some x) (hf : x.block.fault = none) (hr : x.block.refused = none) :
    ∃ u x', step s = .next u ∧ u.hosts = s.hosts.set n ⟨rest.drop more, none⟩ ∧
      u.targets[k]? = some x' ∧
      x'.block = { x.block with refused := some (.misalignedAddress (base.extractLsb' 0 16)) } := by
  rw [loadSegWithin_misaligned hbase] at hm
  exact step_refuse hdue hm hx ((Block.stopped_eq_false_iff _).mpr ⟨hf, hr⟩)

/-- Settles O54: a `LOADFW` is a load of its first segment with the second one's operations to drop. -/
theorem misalignedBaseIsRefused : Obligations.MisalignedBaseIsRefused := by
  refine ⟨fun s k n more x base data rest res => step_loadSegWithin_misaligned,
    fun s k n x dbase ibase dram iram rest res hdue hbase hm hx hf hr => ?_⟩
  rw [loadFw, List.append_assoc] at hm
  simpa only [List.drop_left] using step_loadSegWithin_misaligned hdue hbase hm hx hf hr

end Sys2Proof.Machine
end

section
/-! PROOFS. The encoding (30_encoding.md): what the decoder answers for each kind of word, and that the
decoder, the encoder, the table's rows and the reserved lines agree. -/

namespace Sys2Proof

open Machine

/-! ### The decoder, one equation for each kind of word (R50, R51, R62) -/

theorem decode_reserved {c : Config} {t : TxWord} (h : c.regOf t.idx = none) :
    decode c t = .refuse (.reservedRegister t.idx) := by
  simp [decode, h]

theorem decode_read {c : Config} {t : TxWord} {r : Reg} (h : c.regOf t.idx = some r)
    (hw : t.isWrite = false) :
    decode c t = if t.data = 0#16 then .instr (decodeRead r) else .refuse .malformedTransaction := by
  simp [decode, h, hw]

theorem decode_write {c : Config} {t : TxWord} {r : Reg} (h : c.regOf t.idx = some r)
    (hw : t.isWrite = true) : decode c t = decodeWrite c t.data r := by
  simp [decode, h, hw]

/-- A word with a meaning is a read of a register with no data, or a write of one. -/
theorem decode_instr {c : Config} {t : TxWord} {i : Instr} (h : decode c t = .instr i) :
    ∃ r, (t = readWordOf c r ∧ i = decodeRead r) ∨
      (t = writeWordOf c r t.data ∧ decodeWrite c t.data r = .instr i) := by
  cases hr : c.regOf t.idx with
  | none => simp [decode_reserved hr] at h
  | some r =>
    have ht := t.make_fields
    rw [← Config.idxOf_regOf hr] at ht
    cases hw : t.isWrite with
    | false =>
      rw [decode_read hr hw] at h
      split at h
      · next hd =>
        rw [hw, hd] at ht
        exact ⟨r, .inl ⟨ht.symm, by simpa using h.symm⟩⟩
      · cases h
    | true =>
      rw [hw] at ht
      exact ⟨r, .inr ⟨ht.symm, decode_write hr hw ▸ h⟩⟩

/-! ### Decoding what was encoded (R51, R52, R56) -/

theorem decode_readWordOf {c : Config} (hc : c.wf = true) (r : Reg) :
    decode c (readWordOf c r) = .instr (decodeRead r) := by
  rw [decode_read (r := r) (by simp [readWordOf, Config.regOf_idxOf hc]) (by simp [readWordOf])]
  simp [readWordOf]

theorem decode_writeWordOf {c : Config} (hc : c.wf = true) (r : Reg) (v : Half) :
    decode c (writeWordOf c r v) = decodeWrite c v r := by
  rw [decode_write (r := r) (by simp [writeWordOf, Config.regOf_idxOf hc]) (by simp [writeWordOf])]
  simp [writeWordOf]

theorem Half.getLsbD_bit (i j : Fin 16) : (Half.bit i).getLsbD j = decide (i = j) := by
  rw [Half.bit, ← BitVec.twoPow_eq, BitVec.getLsbD_twoPow]
  simp [Fin.ext_iff]

/-- The two command words differ in the bit `EXECUTE`, which is not `CRC_RESET` (R17, R52). -/
theorem Config.executeWriteCommand_ne_crcResetCommand {c : Config} (hc : c.wf = true) :
    c.executeWriteCommand ≠ c.crcResetCommand := by
  obtain ⟨⟨-, hbits⟩, -⟩ : (c.indices.Nodup ∧ c.bits.Nodup) ∧ 1 ≤ c.nTargets := by
    simpa [Config.wf] using hc
  have hne : c.bitCrcReset ≠ c.bitExecute := by
    intro h
    simp [Config.bits, h] at hbits
  intro h
  have hbit := congrArg (fun v => v.getLsbD c.bitExecute) h
  simp only [Config.executeWriteCommand, Config.crcResetCommand, BitVec.getLsbD_or,
    Half.getLsbD_bit, decide_true, Bool.true_or, decide_eq_false hne, Bool.true_eq_false] at hbit

/-- Settles O1: a read or write word decodes by its register, and the two commands differ. -/
theorem decodeOfEncode : Obligations.DecodeOfEncode := by
  intro c i hc hi
  cases i with
  | rdCtrl | rdCrc | rdAddrh | rdAddrl | rdDatah | rdDatal => exact decode_readWordOf hc _
  | mbCrcrst =>
    exact (decode_writeWordOf hc .ctrl _).trans (by simp [decodeWrite, decodeCommand])
  | mbXwr =>
    exact (decode_writeWordOf hc .ctrl _).trans
      (by simp [decodeWrite, decodeCommand, Config.executeWriteCommand_ne_crcResetCommand hc])
  | wrAddrh v | wrDatah v | wrDatal v => exact decode_writeWordOf hc _ v
  | wrAddrl v => exact (decode_writeWordOf hc .addrLsw v).trans (if_pos hi)

/-! ### Encoding what was decoded (R56) -/

theorem decodeRead_wf (r : Reg) : (decodeRead r).wf = true := by
  cases r <;> rfl

theorem encode_decodeRead (c : Config) (r : Reg) : encode c (decodeRead r) = readWordOf c r := by
  cases r <;> rfl

/-- A write with a meaning is well formed and encodes to the word of that write. -/
theorem wf_and_encode_of_decodeWrite {c : Config} {v : Half} {r : Reg} {i : Instr}
    (h : decodeWrite c v r = .instr i) : i.wf = true ∧ encode c i = writeWordOf c r v := by
  cases r with
  | ctrl =>
    simp only [decodeWrite, decodeCommand] at h
    split at h
    · next hv => cases h; exact ⟨rfl, hv ▸ rfl⟩
    · split at h
      · next hv => cases h; exact ⟨rfl, hv ▸ rfl⟩
      · cases h
  | crc => cases h
  | addrLsw =>
    simp only [decodeWrite] at h
    split at h
    · next hv => cases h; exact ⟨hv, rfl⟩
    · cases h
  | addrMsw | dataMsw | dataLsw => cases h; exact ⟨rfl, rfl⟩

/-- Settles O2: both kinds of words with a meaning are the encoder's. -/
theorem encodeOfDecode : Obligations.EncodeOfDecode := by
  intro c t i h
  obtain ⟨r, ⟨rfl, rfl⟩ | ⟨ht, hi⟩⟩ := decode_instr h
  · exact ⟨decodeRead_wf r, encode_decodeRead c r⟩
  · rw [ht]
    exact wf_and_encode_of_decodeWrite hi

/-! ### The rows of the table (R56) -/

theorem TxWord.isWrite_and (t m : TxWord) :
    TxWord.isWrite (t &&& m) = (t.isWrite && m.isWrite) := BitVec.getLsbD_and

theorem TxWord.idx_and (t m : TxWord) : TxWord.idx (t &&& m) = t.idx &&& m.idx :=
  BitVec.extractLsb'_and

theorem TxWord.data_and (t m : TxWord) : TxWord.data (t &&& m) = t.data &&& m.data :=
  BitVec.extractLsb'_and

/-- A word that agrees with the word of a write under a mask of the two upper fields is a write of the
same register. -/
theorem eq_make_of_and_eq {t m : TxWord} {idx : BitVec 3} (hW : m.isWrite = true)
    (hI : m.idx = BitVec.allOnes 3) (h : t &&& m = TxWord.make 1#1 idx 0#16) :
    t = TxWord.make 1#1 idx t.data := by
  have hw : t.isWrite = true := by simpa [TxWord.isWrite_and, hW] using congrArg TxWord.isWrite h
  have hi : t.idx = idx := by
    simpa only [TxWord.idx_and, hI, BitVec.and_allOnes, TxWord.make_idx] using congrArg TxWord.idx h
  simpa [hw, hi] using t.make_fields.symm

/-- A word that agrees with a row whose mask holds bits 1:0 has aligned data. -/
theorem data_aligned_of_and_eq {t m : TxWord} {idx : BitVec 3}
    (hm : m.data.extractLsb' 0 2 = BitVec.allOnes 2) (h : t &&& m = TxWord.make 1#1 idx 0#16) :
    t.data.aligned = true := by
  have hd : t.data &&& m.data = 0#16 := by simpa [TxWord.data_and] using congrArg TxWord.data h
  have h2 : (t.data &&& m.data).extractLsb' 0 2 = 0#2 := by rw [hd]; rfl
  rw [BitVec.extractLsb'_and, hm, BitVec.and_allOnes] at h2
  exact beq_iff_eq.mpr h2

/-- The instruction of a row with operand `v`, where the row has one. -/
def rowInstr (v : Half) : Mnemonic → Instr
  | .rdCtrl => .rdCtrl
  | .rdCrc => .rdCrc
  | .rdAddrh => .rdAddrh
  | .rdAddrl => .rdAddrl
  | .rdDatah => .rdDatah
  | .rdDatal => .rdDatal
  | .mbCrcrst => .mbCrcrst
  | .mbXwr => .mbXwr
  | .wrAddrh => .wrAddrh v
  | .wrAddrl => .wrAddrl v
  | .wrDatah => .wrDatah v
  | .wrDatal => .wrDatal v

theorem mnemonicOf_rowInstr (v : Half) (m : Mnemonic) : mnemonicOf (rowInstr v m) = m := by
  cases m <;> rfl

/-- A row's mask and match value do not depend on the operand. -/
theorem row_rowInstr (v : Half) (i : Instr) :
    rowMask (rowInstr v (mnemonicOf i)) = rowMask i ∧
      rowMatch (rowInstr v (mnemonicOf i)) = rowMatch i := by
  cases i <;> exact ⟨rfl, rfl⟩

theorem row_congr {i j : Instr} (h : mnemonicOf i = mnemonicOf j) :
    rowMask i = rowMask j ∧ rowMatch i = rowMatch j := by
  obtain ⟨hmask, hmatch⟩ := row_rowInstr 0#16 i
  rw [← hmask, ← hmatch, h]
  exact row_rowInstr 0#16 j

/-- A word that matches a row is the encoding of that row's instruction with the word's own data. -/
theorem encode_of_row {t : TxWord} {i : Instr} (h : t &&& rowMask i = rowMatch i) :
    (rowInstr t.data (mnemonicOf i)).wf = true ∧
      encode Config.default (rowInstr t.data (mnemonicOf i)) = t := by
  cases i with
  | rdCtrl | rdCrc | rdAddrh | rdAddrl | rdDatah | rdDatal | mbCrcrst | mbXwr =>
    exact ⟨rfl, ((BitVec.and_allOnes (x := t)).symm.trans h).symm⟩
  | wrAddrh | wrDatah | wrDatal =>
    exact ⟨rfl, (eq_make_of_and_eq (m := 0xF0000#20) rfl rfl h).symm⟩
  | wrAddrl =>
    exact ⟨data_aligned_of_and_eq (m := 0xF0003#20) (idx := 3#3) rfl h,
      (eq_make_of_and_eq (m := 0xF0003#20) rfl rfl h).symm⟩

/-- The encoding of a well-formed instruction matches its row. -/
theorem row_of_encode {i : Instr} (hi : i.wf = true) :
    encode Config.default i &&& rowMask i = rowMatch i := by
  cases i with
  | rdCtrl => exact Laws.RowMatch.rdCtrl hi
  | rdCrc => exact Laws.RowMatch.rdCrc hi
  | rdAddrh => exact Laws.RowMatch.rdAddrh hi
  | rdAddrl => exact Laws.RowMatch.rdAddrl hi
  | rdDatah => exact Laws.RowMatch.rdDatah hi
  | rdDatal => exact Laws.RowMatch.rdDatal hi
  | mbCrcrst => exact Laws.RowMatch.mbCrcrst hi
  | mbXwr => exact Laws.RowMatch.mbXwr hi
  | wrAddrh v => exact Laws.RowMatch.wrAddrh v hi
  | wrAddrl v => exact Laws.RowMatch.wrAddrl v hi
  | wrDatah v => exact Laws.RowMatch.wrDatah v hi
  | wrDatal v => exact Laws.RowMatch.wrDatal v hi

theorem Config.default_wf : Config.default.wf = true := by decide

theorem decode_of_row {t : TxWord} {i : Instr} (h : t &&& rowMask i = rowMatch i) :
    decode Config.default t = .instr (rowInstr t.data (mnemonicOf i)) := by
  obtain ⟨hwf, ht⟩ := encode_of_row h
  simpa only [ht] using decodeOfEncode Config.default _ Config.default_wf hwf

theorem row_of_decode {t : TxWord} {i : Instr} (h : decode Config.default t = .instr i) :
    t &&& rowMask i = rowMatch i := by
  obtain ⟨hwf, rfl⟩ := encodeOfDecode _ t i h
  exact row_of_encode hwf

/-- Settles O3: a word that matches a row decodes to that row's instruction, so two rows it matches are
one. -/
theorem tableRowsSelectInstructions : Obligations.TableRowsSelectInstructions := by
  refine ⟨fun t i => ⟨fun h => ⟨_, decode_of_row h, mnemonicOf_rowInstr _ _⟩, ?_⟩, ?_⟩
  · rintro ⟨j, hj, hm⟩
    obtain ⟨hmask, hmatch⟩ := row_congr hm
    rw [← hmask, ← hmatch]
    exact row_of_decode hj
  · intro t i j hi hj
    have h : rowInstr t.data (mnemonicOf i) = rowInstr t.data (mnemonicOf j) := by
      simpa using (decode_of_row hi).symm.trans (decode_of_row hj)
    rw [← mnemonicOf_rowInstr t.data (mnemonicOf i), h, mnemonicOf_rowInstr]

/-! ### The reserved lines (R57, R59, R62) -/

/-- The refusal lines that a decoder's answer names: none for an instruction. -/
def Decoded.refusals : Decoded → List Refuse
  | .instr _ => []
  | .refuse r => [r]

/-- Under the default parameters exactly the indices 6 and 7 name no register (R51). -/
theorem Config.default_regOf_eq_none_iff (idx : BitVec 3) :
    Config.default.regOf idx = none ↔ idx = 6#3 ∨ idx = 7#3 := by
  revert idx
  decide

/-- The command words of R52's table. -/
@[simp] theorem Config.default_crcResetCommand : Config.default.crcResetCommand = 0x1000#16 := by
  decide

@[simp] theorem Config.default_executeWriteCommand :
    Config.default.executeWriteCommand = 0xC000#16 := by
  decide

theorem refusalLines_reserved {t : TxWord} (h : t.idx = 6#3 ∨ t.idx = 7#3) :
    refusalLines t = [.reservedRegister t.idx] := by
  rcases h with h | h <;> simp [refusalLines, h]

theorem refusalLines_read {t : TxWord} {r : Reg} (h : t.idx = Config.default.idxOf r)
    (hw : t.isWrite = false) :
    refusalLines t = if t.data = 0#16 then [] else [.malformedTransaction] := by
  cases r <;> simp [refusalLines, h, hw, Config.idxOf, Config.default]

theorem refusalLines_write {t : TxWord} {r : Reg} (h : t.idx = Config.default.idxOf r)
    (hw : t.isWrite = true) :
    refusalLines t = (decodeWrite Config.default t.data r).refusals := by
  cases r with
  | ctrl =>
    have hi : t.idx = 0#3 := h
    by_cases h1 : t.data = 0x1000#16
    · simp [refusalLines, hi, hw, h1, decodeWrite, decodeCommand, Decoded.refusals]
    · by_cases h2 : t.data = 0xC000#16 <;>
        simp [refusalLines, hi, hw, h1, h2, decodeWrite, decodeCommand, Decoded.refusals]
  | addrLsw =>
    have hi : t.idx = 3#3 := h
    by_cases ha : t.data.extractLsb' 0 2 = 0#2 <;>
      simp [refusalLines, hi, hw, ha, decodeWrite, Half.aligned, Decoded.refusals]
  | crc | addrMsw | dataMsw | dataLsw =>
    simp [refusalLines, h, hw, Config.idxOf, Config.default, decodeWrite, Decoded.refusals]

/-- The lines that apply to a word are the one the decoder answers, or none (R62). -/
theorem refusalLines_eq (t : TxWord) : refusalLines t = (decode Config.default t).refusals := by
  cases hr : Config.default.regOf t.idx with
  | none =>
    rw [decode_reserved hr, refusalLines_reserved ((Config.default_regOf_eq_none_iff _).mp hr)]
    rfl
  | some r =>
    have hi := (Config.idxOf_regOf hr).symm
    cases hw : t.isWrite with
    | false =>
      rw [decode_read hr hw, refusalLines_read hi hw]
      split <;> rfl
    | true => rw [decode_write hr hw, refusalLines_write hi hw]

/-- Settles O4: the decoder's answer lists the lines that apply. -/
theorem reservedWordsRefusedByName : Obligations.ReservedWordsRefusedByName := by
  intro t r
  rw [refusalLines_eq]
  cases decode Config.default t <;> simp [Decoded.refusals]

/-- A word that the decoder refuses marks a target that was not stopped, and nothing else (R62). -/
theorem issue_of_refuse {s : State} {k : Nat} {x : Target} {w : TxWord} {r : Refuse}
    (hx : s.targets[k]? = some x) (hs : x.block.stopped = false) (hd : decode s.cfg w = .refuse r) :
    issue k w s = .next ((s.select k).takeRefusal x r) := by
  simp [issue, hx, hs, hd]

/-- Settles O5: the decoder answers an instruction, whose row matches, or a refusal, and then none
does. -/
theorem decoderIsTotal : Obligations.DecoderIsTotal := by
  refine ⟨fun t => ?_, fun t h => ?_, fun s k x w r hx hf hr hd => ?_⟩
  · rw [refusalLines_eq]
    cases hd : decode Config.default t with
    | instr j => exact .inl ⟨⟨j, row_of_decode hd⟩, rfl, j, rfl⟩
    | refuse r =>
      refine .inr ⟨fun i hi => ?_, r, rfl, rfl⟩
      cases hd.symm.trans (decode_of_row hi)
  · exact decode_reserved ((Config.default_regOf_eq_none_iff _).mpr h)
  · exact issue_of_refuse hx ((Block.stopped_eq_false_iff _).mpr ⟨hf, hr⟩) hd

/-! ### Words and lines as they are written (R56 to R60) -/

/-- Settles O6, by running the decoder. -/
theorem writtenOutWordsDecode : Obligations.WrittenOutWordsDecode := by
  unfold Obligations.WrittenOutWordsDecode
  decide

/-- Settles O7, by running the assembler. -/
theorem assemblerExamples : Obligations.AssemblerExamples := by
  unfold Obligations.AssemblerExamples
  decide

end Sys2Proof
end

section
/-! PROOFS. The checksum (40_crc16.md): the byte that is the accumulator's own upper byte shifts it out,
which with linearity gives the table and the residue; a fold over bits gives the detection of bursts;
and the trailer check of a blob. -/

namespace Sys2Proof.Machine

/-! ### The division step (R70) -/

/-- Settles O8: the generator is 0x1021, and the corner cases are run. -/
theorem crcBitIsDivisionStep : Obligations.CrcBitIsDivisionStep :=
  ⟨fun _ _ => rfl, by decide⟩

/-- The accumulator's own top bit cancels itself, so the step only shifts. -/
theorem crcBit_top (c : Half) : crcBit c (c.getLsbD 15) = c <<< 1 := by
  rw [crcBit, Bool.xor_self, if_neg Bool.false_ne_true]

/-- The generator has the term 1, so the lowest bit after a step says whether it was subtracted. -/
theorem getLsbD_zero_crcBit (c : Half) (x : Bool) :
    (crcBit c x).getLsbD 0 = (c.getLsbD 15 ^^ x) := by
  unfold crcBit
  cases c.getLsbD 15 ^^ x <;> simp [crcPoly]

/-! ### The bits of a message, in the codec's order (R71) -/

/-- The bits of a message, in the order of `messageBit`. -/
def messageBits (d : List Byte) : List Bool := (List.range (8 * d.length)).map (messageBit d)

theorem messageBit_cons_of_lt (b : Byte) (d : List Byte) {n : Nat} (h : n < 8) :
    messageBit (b :: d) n = b.getLsbD (7 - n) := by
  rw [messageBit, Nat.div_eq_of_lt h, Nat.mod_eq_of_lt h, List.getD_cons_zero]

theorem messageBit_cons_add (b : Byte) (d : List Byte) (n : Nat) :
    messageBit (b :: d) (8 + n) = messageBit d n := by
  rw [messageBit, Nat.add_div_left n (by decide), Nat.add_mod_left, List.getD_cons_succ, messageBit]

theorem messageBits_cons (b : Byte) (d : List Byte) :
    messageBits (b :: d) = (List.range 8).map (fun i => b.getLsbD (7 - i)) ++ messageBits d := by
  rw [messageBits, List.length_cons, Nat.mul_succ, Nat.add_comm, List.range_add, List.map_append,
    List.map_map]
  refine congrArg₂ (· ++ ·) ?_ ?_
  · exact List.map_congr_left fun n hn => messageBit_cons_of_lt b d (List.mem_range.mp hn)
  · exact List.map_congr_left fun n _ => messageBit_cons_add b d n

theorem crc16_eq_foldl_messageBits (s : Half) (d : List Byte) :
    crc16 s d = (messageBits d).foldl crcBit s := by
  induction d generalizing s with
  | nil => rfl
  | cons b d ih =>
    rw [messageBits_cons, List.foldl_append, ← ih]
    rfl

/-! ### The byte step, its equal form and the table (R71, R72) -/

/-- The accumulator's own leading bits are shifted out and nothing is subtracted. -/
theorem foldl_crcBit_leading (c : Half) {n : Nat} (hn : n ≤ 16) :
    ((List.range n).map (fun i => c.getLsbD (15 - i))).foldl crcBit c = c <<< n := by
  induction n with
  | zero => exact (BitVec.shiftLeft_zero c).symm
  | succ n ih =>
    have htop : c.getLsbD (15 - n) = (c <<< n).getLsbD 15 := by
      rw [BitVec.getLsbD_shiftLeft, decide_eq_false (show ¬ 15 < n by omega)]
      rfl
    rw [List.range_succ, List.map_append, List.foldl_append, ih (by omega), BitVec.shiftLeft_add,
      ← crcBit_top, ← htop]
    rfl

/-- Its own upper byte takes the accumulator eight places to the left (R77's ground). -/
theorem crcStep_upper (c : Half) : crcStep c (c.extractLsb' 8 8) = c <<< 8 := by
  have hbits : (List.range 8).map (fun i => (c.extractLsb' 8 8).getLsbD (7 - i)) =
      (List.range 8).map (fun i => c.getLsbD (15 - i)) := by
    apply List.map_congr_left
    intro i hmem
    have hi : i < 8 := List.mem_range.mp hmem
    rw [BitVec.getLsbD_extractLsb', decide_eq_true (show 7 - i < 8 by omega), Bool.true_and,
      show 8 + (7 - i) = 15 - i by omega]
  calc crcStep c (c.extractLsb' 8 8)
    _ = ((List.range 8).map (fun i => (c.extractLsb' 8 8).getLsbD (7 - i))).foldl crcBit c := rfl
    _ = c <<< 8 := by rw [hbits, foldl_crcBit_leading c (by decide)]

theorem extractLsb'_upper_shiftLeft (c : Half) :
    (c <<< 8).extractLsb' 8 8 = c.extractLsb' 0 8 := by
  apply BitVec.eq_of_getLsbD_eq
  intro i hi
  simp only [BitVec.getLsbD_extractLsb', BitVec.getLsbD_shiftLeft]
  simp [hi, show 8 + i < 16 by omega]

/-- R72's table form: `b` enters as its difference from the accumulator's own upper byte. -/
theorem crcStep_eq_table (c : Half) (b : Byte) :
    crcStep c b = (c <<< 8) ^^^ crcStep 0#16 (c.extractLsb' 8 8 ^^^ b) := by
  rw [← crcStep_upper, ← crcStep_xor, BitVec.xor_zero, ← BitVec.xor_assoc, BitVec.xor_self,
    BitVec.zero_xor]

theorem crcStep_lower (c : Half) (b : Byte) :
    crcStep (c &&& 0x00FF#16) b = (c <<< 8) ^^^ crcStep 0#16 b := by
  have hup : (c &&& 0x00FF#16).extractLsb' 8 8 = 0#8 := by
    rw [BitVec.extractLsb'_and, show (0x00FF#16).extractLsb' 8 8 = 0#8 by decide, BitVec.and_zero]
  have hlow : (c &&& 0x00FF#16) <<< 8 = c <<< 8 := by
    rw [BitVec.and_comm, BitVec.shiftLeft_and_distrib,
      show (0x00FF#16) <<< 8 = BitVec.allOnes 16 <<< 8 by decide,
      BitVec.allOnes_shiftLeft_and_shiftLeft]
  rw [crcStep_eq_table, hup, hlow, BitVec.zero_xor]

/-- A byte exclusive-ored into bits 15:8 beforehand need not be fed any more. -/
theorem crcStep_eq_xor_upper (c : Half) (b : Byte) :
    crcStep c b = crcStep (c ^^^ (b.setWidth 16 <<< 8)) 0#8 := by
  have hup : (b.setWidth 16 <<< 8).extractLsb' 8 8 = b := by
    rw [extractLsb'_upper_shiftLeft, BitVec.extractLsb'_setWidth_of_le (by decide),
      BitVec.extractLsb'_eq_self]
  have hout : b.setWidth 16 <<< 8 <<< 8 = 0#16 := by
    rw [← BitVec.shiftLeft_add, BitVec.shiftLeft_eq_zero (by decide)]
  have hfed := crcStep_upper (b.setWidth 16 <<< 8)
  rw [hup, hout] at hfed
  rw [← BitVec.xor_self (x := b), crcStep_xor, hfed, BitVec.xor_zero]

/-- Settles O9: a byte exclusive-ored into the upper half first leaves eight plain shifts, and the lower
half alone with `c[15:8] ^ b` gives the table form too. -/
theorem crcStepEqualForm : Obligations.CrcStepEqualForm := by
  refine ⟨crcStep_eq, fun c b => ?_, fun c b => ?_, by decide⟩
  · rw [crcStep_eq_xor_upper]
    simp [crcStep_eq, crcBit, crcPoly]
  · rw [crcStep_lower, crcStep_eq_table c b]

theorem getElem?_crcTable (i : Byte) : crcTable[i.toNat]? = some (crcStep 0#16 i) := by
  have hi : i.toNat < 256 := i.isLt
  simp [← crcTable_computed, hi, crcTableEntry]

/-- Settles O10: the upper byte is shifted out, and the difference from it looked up. -/
theorem crcTableForm : Obligations.CrcTableForm := by
  refine ⟨by decide +kernel, getElem?_crcTable, fun c b => ?_⟩
  rw [List.getD_eq_getElem?_getD, getElem?_crcTable, Option.getD_some]
  exact crcStep_eq_table c b

/-! ### Byte sequences and words (R73, R74, R75) -/

theorem crc16_append (s : Half) (a b : List Byte) : crc16 s (a ++ b) = crc16 (crc16 s a) b :=
  List.foldl_append

@[simp] theorem crc16_zeros (n : Nat) : crc16 0#16 (List.replicate n 0#8) = 0#16 := by
  induction n with
  | zero => rfl
  | succ n ih => simpa [List.replicate_succ] using ih

/-- Settles O13, as a fold over an append. -/
theorem crcChaining : Obligations.CrcChaining := ⟨crc16_append, crc16_nil⟩

/-- Settles O11: every clause is the chaining law; the two check values are run. -/
theorem crcOverBuffer : Obligations.CrcOverBuffer := by
  refine ⟨crc16_nil, fun s d b => ?_, crc16_zeros, fun n d => ?_, by decide +kernel⟩
  · rw [crc16_append, crc16_cons, crc16_nil]
  · rw [crc16_append, crc16_zeros]

/-- Settles O12: the order of the bytes is that of `bytesOfWord`; the worked values are run. -/
theorem crcOverWord : Obligations.CrcOverWord :=
  ⟨fun _ _ => rfl, by decide +kernel⟩

/-! ### Linearity (R80) -/

theorem crc16_xor (s t : Half) (d e : List Byte) (h : d.length = e.length) :
    crc16 (s ^^^ t) (List.zipWith (· ^^^ ·) d e) = crc16 s d ^^^ crc16 t e := by
  induction d generalizing s t e with
  | nil =>
    obtain rfl : e = [] := List.eq_nil_of_length_eq_zero h.symm
    rfl
  | cons a d ih =>
    cases e with
    | nil => cases h
    | cons b e =>
      simp only [List.zipWith_cons_cons, crc16_cons, crcStep_xor]
      exact ih _ _ e (Nat.succ.inj h)

theorem zipWith_xor_zeros (d : List Byte) :
    List.zipWith (· ^^^ ·) d (List.replicate d.length 0#8) = d := by
  induction d with
  | nil => rfl
  | cons a d ih => simpa [List.replicate_succ] using ih

/-- Settles O14: the law for sequences, with zeros for one of the seeds or one of the messages. -/
theorem crcLinear : Obligations.CrcLinear := by
  refine ⟨crc16_xor, fun s d => ?_, crc16_zeros, fun c b => ?_⟩
  · rw [← crc16_xor _ _ _ _ List.length_replicate.symm, zipWith_xor_zeros, BitVec.zero_xor]
  · rw [crcStep_lower, crcStep_zero, BitVec.xor_zero]
    exact crcStep_eq_table c b

/-! ### The trailer check and the residue (R77, R79) -/

/-- A blob that holds a trailer is a body with two bytes behind it. -/
theorem exists_body_trailer {blob : List Byte} (h : 2 ≤ blob.length) :
    ∃ body hi lo, blob = body ++ [hi, lo] := by
  obtain ⟨hi, lo, hd⟩ : ∃ hi lo, blob.drop (blob.length - 2) = [hi, lo] :=
    List.length_eq_two.mp (by rw [List.length_drop]; omega)
  exact ⟨_, hi, lo, by rw [← hd, List.take_append_drop]⟩

theorem blobCrcOk_of_length_lt (seed : Half) {blob : List Byte} (h : blob.length < 2) :
    blobCrcOk seed blob = .err .outOfBounds := by
  match blob, h with
  | [], _ => rfl
  | [_], _ => rfl

theorem blobCrcOk_append (seed : Half) (body : List Byte) (hi lo : Byte) :
    blobCrcOk seed (body ++ [hi, lo]) =
      if crc16 seed body = hi ++ lo then .ok
      else .err (.crcMismatch (crc16 seed body) (hi ++ lo)) := by
  have hlen : (body ++ [hi, lo]).length - 2 = body.length := by simp
  simp only [blobCrcOk, hlen, List.drop_left, List.take_left, halfOfBytes]

/-- Settles O17: a body with two bytes behind it passes exactly when they are its checksum. -/
theorem blobTrailerCheck : Obligations.BlobTrailerCheck := by
  refine ⟨fun _ _ => rfl, rfl, fun seed _ => blobCrcOk_of_length_lt seed, ?_, ?_⟩
  · intro seed body hi lo h
    rw [blobCrcOk_append, if_pos h]
  · intro seed body hi lo h
    rw [blobCrcOk_append, if_neg h]

/-- The accumulator's own two bytes shift it out altogether. -/
theorem crc16_own_bytes (c : Half) :
    crc16 c [c.extractLsb' 8 8, c.extractLsb' 0 8] = 0#16 := by
  rw [crc16_cons, crcStep_upper, ← extractLsb'_upper_shiftLeft, crc16_cons, crcStep_upper, crc16_nil,
    ← BitVec.shiftLeft_add, BitVec.shiftLeft_eq_zero (by decide)]

theorem crc16_append_own_bytes (s : Half) (d : List Byte) :
    crc16 s (d ++ [(crc16 s d).extractLsb' 8 8, (crc16 s d).extractLsb' 0 8]) = 0#16 := by
  rw [crc16_append, crc16_own_bytes]

/-- Settles O15: a blob that passes is its body with the body's checksum behind it. -/
theorem crcResidueIsZero : Obligations.CrcResidueIsZero := by
  refine ⟨crc16_append_own_bytes, fun seed blob hok => ?_⟩
  have hlen : 2 ≤ blob.length := by
    by_contra hlt
    rw [blobCrcOk_of_length_lt seed (by omega)] at hok
    cases hok
  obtain ⟨body, hi, lo, rfl⟩ := exists_body_trailer hlen
  have hcrc : crc16 seed body = hi ++ lo := by
    by_contra hne
    rw [blobCrcOk_append, if_neg hne] at hok
    cases hok
  have h := crc16_append_own_bytes seed body
  rwa [hcrc, BitVec.extractLsb'_append_eq_left, BitVec.extractLsb'_append_eq_right] at h

/-! ### Bursts (R78) -/

theorem getLsbD_zero_of_shiftLeft_eq_zero {c : Half} {m : Nat} (hm : m ≤ 15) (h : c <<< m = 0#16) :
    c.getLsbD 0 = false := by
  have hbit : (c <<< m).getLsbD m = c.getLsbD 0 := by
    simp only [BitVec.getLsbD_shiftLeft]
    simp [show m < 16 by omega]
  rw [← hbit, h, BitVec.getLsbD_zero]

/-- A step that leaves an even accumulator subtracted nothing. -/
theorem crcBit_eq_shiftLeft {c : Half} {x : Bool} (h : (crcBit c x).getLsbD 0 = false) :
    crcBit c x = c <<< 1 := by
  rw [getLsbD_zero_crcBit] at h
  rw [crcBit, h, if_neg Bool.false_ne_true]

theorem eq_zero_of_crcBit_false {c : Half} (h : crcBit c false = 0#16) : c = 0#16 := by
  have hlow : (crcBit c false).getLsbD 0 = false := by rw [h, BitVec.getLsbD_zero]
  have hshift : c <<< 1 = 0#16 := (crcBit_eq_shiftLeft hlow).symm.trans h
  have htop : c.getLsbD 15 = false := by rwa [getLsbD_zero_crcBit, Bool.xor_false] at hlow
  apply BitVec.eq_of_getLsbD_eq
  intro i hi
  rw [BitVec.getLsbD_zero]
  by_cases h15 : i = 15
  · rwa [h15]
  · have hbit : (c <<< 1).getLsbD (i + 1) = false := by rw [hshift, BitVec.getLsbD_zero]
    rw [BitVec.getLsbD_shiftLeft] at hbit
    simpa [show i + 1 < 16 by omega] using hbit

/-- Only bits that are set can undo what the accumulator holds: when the fold ends in zero and at most
the first `m` bits are set, the accumulator held nothing below its `m` upper bits. -/
theorem shiftLeft_eq_zero_of_foldl_crcBit {xs : List Bool} {c : Half} {m : Nat} (hm : m ≤ 16)
    (hset : ∀ n, xs[n]? = some true → n < m) (h : xs.foldl crcBit c = 0#16) : c <<< m = 0#16 := by
  induction xs generalizing c m with
  | nil => rw [show c = 0#16 from h, BitVec.zero_shiftLeft]
  | cons x xs ih =>
    have hrest : crcBit c x <<< (m - 1) = 0#16 :=
      ih (by omega) (fun n hn => by have := hset (n + 1) hn; omega) h
    cases m with
    | zero =>
      have hx : x = false := by
        by_contra hx
        exact absurd (hset 0 (by simpa using hx)) (by decide)
      rw [hx, BitVec.shiftLeft_zero] at hrest
      rw [eq_zero_of_crcBit_false hrest, BitVec.zero_shiftLeft]
    | succ m =>
      rw [Nat.add_sub_cancel] at hrest
      have hlow := getLsbD_zero_of_shiftLeft_eq_zero (by omega) hrest
      rwa [crcBit_eq_shiftLeft hlow, ← BitVec.shiftLeft_add, Nat.add_comm] at hrest

/-- A fold from zero over bits that are set within a window of 16 at most ends in zero only when none
is set. -/
theorem eq_false_of_foldl_crcBit_zero {xs : List Bool} {p : Nat}
    (hset : ∀ n, xs[n]? = some true → p ≤ n ∧ n < p + 16) (h : xs.foldl crcBit 0#16 = 0#16) :
    ∀ x ∈ xs, x = false := by
  induction xs generalizing p with
  | nil => exact fun x hx => absurd hx List.not_mem_nil
  | cons x xs ih =>
    have hx : x = false := by
      by_contra hx
      have hp : p = 0 := by
        have := hset 0 (by simpa using hx)
        omega
      have hrest : crcBit 0#16 x <<< 15 = 0#16 :=
        shiftLeft_eq_zero_of_foldl_crcBit (by decide)
          (fun n hn => by have := hset (n + 1) hn; omega) h
      have hlow := getLsbD_zero_of_shiftLeft_eq_zero (by decide) hrest
      rw [getLsbD_zero_crcBit, BitVec.getLsbD_zero, Bool.false_xor] at hlow
      exact hx hlow
    subst hx
    have hrest : ∀ x ∈ xs, x = false :=
      ih (p := p - 1) (fun n hn => by have := hset (n + 1) hn; omega) h
    simpa using hrest

theorem messageBit_xor {d e : List Byte} (h : d.length = e.length) (n : Nat) :
    messageBit (List.zipWith (· ^^^ ·) d e) n = (messageBit d n ^^ messageBit e n) := by
  simp only [messageBit, List.getD_eq_getElem?_getD, List.getElem?_zipWith]
  by_cases hn : n / 8 < d.length <;> simp [hn, h ▸ hn]

theorem messageBits_xor {d e : List Byte} (h : d.length = e.length) :
    messageBits (List.zipWith (· ^^^ ·) d e) =
      (List.range (8 * d.length)).map (fun n => messageBit d n ^^ messageBit e n) := by
  rw [messageBits, List.length_zipWith, ← h, Nat.min_self]
  exact List.map_congr_left fun n _ => messageBit_xor h n

theorem eq_of_messageBit_eq {d e : List Byte} (h : d.length = e.length)
    (hbit : ∀ n, n < 8 * d.length → messageBit d n = messageBit e n) : d = e := by
  apply List.ext_getElem h
  intro k hd he
  apply BitVec.eq_of_getLsbD_eq
  intro i hi
  have hk := hbit (8 * k + (7 - i)) (by omega)
  have hdiv : (8 * k + (7 - i)) / 8 = k := by omega
  have hmod : 7 - (8 * k + (7 - i)) % 8 = i := by omega
  rwa [messageBit, messageBit, hdiv, hmod, List.getD_eq_getElem _ _ hd,
    List.getD_eq_getElem _ _ he] at hk

/-- Settles O16: the exclusive or of the two messages has checksum zero and its bits set in the window
alone, so none is set. -/
theorem crcDetectsBurst : Obligations.CrcDetectsBurst := by
  intro s d e p hlen hne hwin hcrc
  have hfold : (messageBits (List.zipWith (· ^^^ ·) d e)).foldl crcBit 0#16 = 0#16 := by
    rw [← crc16_eq_foldl_messageBits, ← BitVec.xor_self (x := s), crc16_xor s s d e hlen, hcrc,
      BitVec.xor_self, BitVec.xor_self]
  have hset : ∀ n, (messageBits (List.zipWith (· ^^^ ·) d e))[n]? = some true →
      p ≤ n ∧ n < p + 16 := by
    intro n hn
    rw [messageBits_xor hlen] at hn
    obtain ⟨hlt, hbit⟩ := List.getElem?_eq_some_iff.mp hn
    rw [List.getElem_map, List.getElem_range] at hbit
    rw [List.length_map, List.length_range] at hlt
    exact hwin n hlt (by simpa using hbit)
  refine hne (eq_of_messageBit_eq hlen fun n hn => ?_)
  have hmem : (messageBit d n ^^ messageBit e n) ∈ messageBits (List.zipWith (· ^^^ ·) d e) :=
    messageBits_xor hlen ▸ List.mem_map_of_mem (List.mem_range.mpr hn)
  simpa using eq_false_of_foldl_crcBit_zero hset hfold _ hmem

end Sys2Proof.Machine
end

section
/-! PROOFS. The mailbox (41_mailbox.md): the prologue of a transaction, what each instruction answers
with and without a word in flight, what every transaction leaves unchanged, and the engine's commit. -/

namespace Sys2Proof

/-! ### The words of the register writes (R50, R56) -/

/-- A transaction word is its two upper fields with the data below them. -/
theorem TxWord.make_eq_or (w : BitVec 1) (idx : BitVec 3) (v : Half) :
    TxWord.make w idx v = TxWord.make w idx 0#16 ||| v.setWidth 20 := by
  apply BitVec.eq_of_getLsbD_eq
  intro i hi
  simp only [TxWord.make, BitVec.getLsbD_append, BitVec.getLsbD_or, BitVec.getLsbD_setWidth, hi]
  by_cases h : i < 16
  · simp [h]
  · simp [h, BitVec.getLsbD_of_ge v i (by omega)]

/-- A misaligned lower address half is refused by decoding (R36, R59). -/
theorem decode_writeWordOf_misaligned {c : Config} (hc : c.wf = true) {v : Half}
    (hv : v.aligned = false) : decode c (writeWordOf c .addrLsw v) = .refuse (.misalignedAddress v) :=
  (decode_writeWordOf hc .addrLsw v).trans (if_neg (by simp [hv]))

end Sys2Proof

namespace Sys2Proof.Machine

/-! ### The marks and the halves of a record -/

theorem Block.stopped_of_mark {b : Block} (h : b.fault ≠ none ∨ b.refused ≠ none) :
    b.stopped = true := by
  simpa [Block.stopped, Option.isSome_iff_ne_none] using h

theorem Block.not_stopped {b : Block} (hf : b.fault = none) (hr : b.refused = none) :
    b.stopped = false :=
  (Block.stopped_eq_false_iff b).mpr ⟨hf, hr⟩

theorem joinHalves_eq_none {hi lo : Option Half} (h : hi = none ∨ lo = none) :
    joinHalves hi lo = none := by
  rcases h with rfl | rfl
  · rfl
  · cases hi <;> rfl

theorem Block.pointer?_of_halves {b : Block} {ah al : Half} (hah : b.addrMsw = some ah)
    (hal : b.addrLsw = some al) : b.pointer? = some (ah ++ al) := by
  simp [Block.pointer?, hah, hal, joinHalves]

theorem Block.dataWord?_of_halves {b : Block} {dh dl : Half} (hdh : b.dataMsw = some dh)
    (hdl : b.dataLsw = some dl) : b.dataWord? = some (dh ++ dl) := by
  simp [Block.dataWord?, hdh, hdl, joinHalves]

/-! ### What an instruction answers on a running target (R90 to R103) -/

/-- An aligned operand leaves `WR.ADDRL` a plain register write (R92). -/
theorem exec_wrAddrl_of_aligned {v : Half} (s : State) (hv : v.aligned = true) :
    exec (.wrAddrl v) s = writeHalf .wrAddrl .addrLsw v s :=
  if_pos hv

section
variable {s : State} {t : Target} (ht : s.target? = some t) (hs : t.block.stopped = false)
include ht hs

/-- A well-formed instruction other than `RD.CTRL` faults while a word is in flight (R90 step 3). -/
theorem exec_busy {i : Instr} (hwf : i.wf = true) (hi : i ≠ .rdCtrl) (hb : t.block.busy = true) :
    exec i s = .next (s.takeFault t (.busyAccess (mnemonicOf i))) := by
  cases i with
  | rdCtrl => exact absurd rfl hi
  | wrAddrl v =>
    rw [exec_wrAddrl_of_aligned s hwf]
    exact prologue_busy _ ht hs hb (by decide)
  | _ => exact prologue_busy _ ht hs hb (by decide)

/-- `RD.CTRL` returns the flag among a draw's other bits, busy or not (R98). -/
theorem exec_rdCtrl :
    exec .rdCtrl s = .next (s.drawReply (controlValue s.cfg t.block.busy)) :=
  prologue_poll _ ht hs

variable (hb : t.block.busy = false)
include hb

/-- A register write with no word in flight completes (R91 to R94). -/
theorem writeHalf_idle (m : Mnemonic) (r : Reg) (v : Half) :
    writeHalf m r v s = .next (s.complete t (t.block.set r (some v)) none) :=
  prologue_idle _ ht hs hb

/-- A read of an address or data register with no word in flight returns a draw (R100 to R103). -/
theorem readOpen_idle (m : Mnemonic) : readOpen m s = .next (s.drawReply id) :=
  prologue_idle _ ht hs hb

theorem exec_mbCrcrst_idle :
    exec .mbCrcrst s = .next (s.complete t (t.block.set .crc (some s.cfg.crcInit)) none) :=
  prologue_idle _ ht hs hb

/-- `RD.CRC` with no word in flight returns a written accumulator and changes no record (R99). -/
theorem exec_rdCrc_written {v : Half} (hv : t.block.crc = some v) :
    exec .rdCrc s = .next { s with reply := some v } := by
  have h : exec .rdCrc s = .next (s.complete t t.block (some v)) :=
    (prologue_idle _ ht hs hb).trans (by simp [hv])
  rw [h, State.complete, State.setTarget, State.set_target_self ht]

theorem exec_rdCrc_unwritten (hv : t.block.crc = none) :
    exec .rdCrc s = .next (s.takeFault t (.unwrittenRead .crc)) :=
  (prologue_idle _ ht hs hb).trans (by simp [hv])

/-! The checks of `MB.XWR`, in their order (R97) -/

theorem exec_mbXwr_pointer_unwritten (ha : t.block.pointer? = none) :
    exec .mbXwr s = .next (s.takeFault t (.unwrittenOperand .addr)) :=
  (prologue_idle _ ht hs hb).trans (by simp [ha])

theorem exec_mbXwr_data_unwritten {a : Word} (ha : t.block.pointer? = some a)
    (hd : t.block.dataWord? = none) :
    exec .mbXwr s = .next (s.takeFault t (.unwrittenOperand .data)) :=
  (prologue_idle _ ht hs hb).trans (by simp [ha, hd])

theorem exec_mbXwr_address_invalid {a d : Word} (ha : t.block.pointer? = some a)
    (hd : t.block.dataWord? = some d) (hv : tmemValid s.cfg a = false) :
    exec .mbXwr s = .next (s.takeFault t (.targetAddressInvalid a)) :=
  (prologue_idle _ ht hs hb).trans (by simp [ha, hd, hv])

theorem exec_mbXwr_accepts {a d : Word} (ha : t.block.pointer? = some a)
    (hd : t.block.dataWord? = some d) (hv : tmemValid s.cfg a = true) :
    exec .mbXwr s = .next (s.acceptWord t) :=
  (prologue_idle _ ht hs hb).trans (by simp [ha, hd, hv])

end

/-! ### The register writes (R91 to R94) -/

/-- Settles O19: an aligned operand makes `WR.ADDRL` a register write like `WR.ADDRH`, and no other
operand has a word that decodes. -/
theorem addressWrites : Obligations.AddressWrites := by
  refine ⟨TxWord.make_eq_or 1#1 2#3, TxWord.make_eq_or 1#1 3#3, fun v hv => ?_,
    fun s t v ht hf hr hb => ?_, fun s t v ht hf hr hb hv => ?_,
    fun s t v ht hf hr hb => ?_, fun s t v ht hf hr hb hv => ?_⟩
  · have hword : writeWordOf Config.default .addrLsw v = 0xB0000#20 ||| v.setWidth 20 :=
      TxWord.make_eq_or 1#1 3#3 v
    rw [← hword]
    exact decode_writeWordOf_misaligned Config.default_wf (by simpa [Half.aligned] using hv)
  · exact writeHalf_idle ht (Block.not_stopped hf hr) hb .wrAddrh .addrMsw v
  · rw [exec_wrAddrl_of_aligned s (beq_iff_eq.mpr hv)]
    exact writeHalf_idle ht (Block.not_stopped hf hr) hb .wrAddrl .addrLsw v
  · exact exec_busy ht (Block.not_stopped hf hr) rfl (by simp) hb
  · exact exec_busy ht (Block.not_stopped hf hr) (beq_iff_eq.mpr hv) (by simp) hb

/-- Settles O20: both are register writes. -/
theorem dataWrites : Obligations.DataWrites := by
  refine ⟨TxWord.make_eq_or 1#1 4#3, TxWord.make_eq_or 1#1 5#3, fun s t v ht hf hr hb => ?_,
    fun s t v ht hf hr hb => ?_⟩
  · have hs := Block.not_stopped hf hr
    exact ⟨writeHalf_idle ht hs hb .wrDatah .dataMsw v, writeHalf_idle ht hs hb .wrDatal .dataLsw v⟩
  · have hs := Block.not_stopped hf hr
    exact ⟨exec_busy ht hs rfl (by simp) hb, exec_busy ht hs rfl (by simp) hb⟩

/-! ### The commands (R96, R97) -/

/-- Settles O21: the accumulator's old value plays no part. -/
theorem crcResetCommand : Obligations.CrcResetCommand :=
  ⟨by decide, fun _ _ ht hf hr hb => exec_mbCrcrst_idle ht (Block.not_stopped hf hr) hb,
    fun _ _ ht hf hr hb => exec_busy ht (Block.not_stopped hf hr) rfl (by simp) hb⟩

/-- Settles O22: each clause's hypotheses decide one of the four ends of the checks. -/
theorem executeWriteCommand : Obligations.ExecuteWriteCommand := by
  refine ⟨by decide, fun s t ht hf hr hb => ?_, fun s t ht hf hr hb =>
    exec_busy ht (Block.not_stopped hf hr) rfl (by simp) hb⟩
  have hs := Block.not_stopped hf hr
  refine ⟨fun hnone => exec_mbXwr_pointer_unwritten ht hs hb (joinHalves_eq_none hnone),
    fun ah al hah hal => ?_⟩
  have ha := Block.pointer?_of_halves hah hal
  refine ⟨fun hnone => exec_mbXwr_data_unwritten ht hs hb ha (joinHalves_eq_none hnone),
    fun dh dl hdh hdl => ?_⟩
  have hd := Block.dataWord?_of_halves hdh hdl
  refine ⟨exec_mbXwr_address_invalid ht hs hb ha hd, fun hv =>
    ⟨s.acceptWord t, s.nextWait, exec_mbXwr_accepts ht hs hb ha hd hv, ?_⟩⟩
  simp

/-! ### The reads (R98 to R103) -/

/-- Settles O23: the value returned is the draw with the one bit replaced. -/
theorem readControl : Obligations.ReadControl := by
  refine ⟨by decide, fun s t ht hf hr => ⟨_, controlValue s.cfg t.block.busy s.nextDraw,
    exec_rdCtrl ht (Block.not_stopped hf hr), rfl, (withBit_getLsbD ..).trans (if_pos rfl),
    fun _ hj => (withBit_getLsbD ..).trans (if_neg hj), ?_⟩⟩
  simp

/-- Settles O24: the accumulator is written or not. -/
theorem readCrc : Obligations.ReadCrc :=
  ⟨by decide, fun _ _ _ ht hf hr hb hv => exec_rdCrc_written ht (Block.not_stopped hf hr) hb hv,
    fun _ _ ht hf hr hb hv => exec_rdCrc_unwritten ht (Block.not_stopped hf hr) hb hv,
    fun _ _ ht hf hr hb => exec_busy ht (Block.not_stopped hf hr) rfl (by simp) hb⟩

/-- Each of the four reads of an open register runs that read's own rule. -/
theorem exec_open_read {i : Instr} (hi : i ∈ [Instr.rdAddrh, .rdAddrl, .rdDatah, .rdDatal])
    (s : State) : exec i s = readOpen (mnemonicOf i) s ∧ i.wf = true ∧ i ≠ .rdCtrl := by
  simp only [List.mem_cons, List.not_mem_nil, or_false] at hi
  obtain rfl | rfl | rfl | rfl := hi <;> exact ⟨rfl, rfl, nofun⟩

/-- Settles O25: the four reads are one operation but for the mnemonic. -/
theorem readOpenRegisters : Obligations.ReadOpenRegisters := by
  refine ⟨by decide, by decide, by decide, by decide, fun i s t hi ht hf hr => ?_⟩
  have hs := Block.not_stopped hf hr
  obtain ⟨hexec, hwf, hne⟩ := exec_open_read hi s
  refine ⟨fun hb => ⟨s.drawReply id, hexec.trans (readOpen_idle ht hs hb _), ?_⟩,
    exec_busy ht hs hwf hne⟩
  simp

/-! ### The prologue of a transaction word (R90) -/

/-- A word to a stopped run keeps its record (R90 step 1). -/
theorem issue_stopped {s : State} {k : Nat} {x : Target} (w : TxWord) (hx : s.targets[k]? = some x)
    (hs : x.block.stopped = true) : issue k w s = .next (s.select k) := by
  simp [issue, hx, hs]

/-- Settles O26: the decoder answers well-formed instructions only, so none but `RD.CTRL` passes a word
in flight. -/
theorem prologueOrder : Obligations.PrologueOrder := by
  refine fun s k w x hx => ⟨fun hmark => issue_stopped w hx (Block.stopped_of_mark hmark),
    fun hf hr => ?_⟩
  have hs := Block.not_stopped hf hr
  refine ⟨fun r hd => issue_of_refuse hx hs hd, fun i hd => ⟨fun hb hi => ?_, fun _ =>
    issue_of_instr hd⟩⟩
  rw [issue_of_instr hd]
  exact exec_busy (s := s.select k) hx hs (encodeOfDecode _ w i hd).1 hi hb

/-! ### The frame of a transaction (R38, R91 to R103) -/

/-- An instruction that does not write a register leaves it alone. -/
theorem Effect.get_eq {i : Instr} {c : Config} {t t' : Target} (e : Effect i c t t') (r : Reg)
    (h : ∀ v, ¬ Writes c i r v) : t'.block.get r = t.block.get r :=
  (e.get_cases r).resolve_right fun ⟨v, hw, _⟩ => h v hw

/-- Only an accepted word changes `busy` and the engine's wait (R97, log 4). -/
theorem Effect.busy_wait_eq {i : Instr} {c : Config} {t t' : Target} (e : Effect i c t t')
    (hi : i ≠ .mbXwr) : t'.block.busy = t.block.busy ∧ t'.wait = t.wait := by
  cases e with
  | accept _ _ _ h => exact absurd h hi
  | _ => simp

/-- Settles O28: an instruction changes the addressed target alone, and that by an `Effect`. -/
theorem transactionFrame : Obligations.TransactionFrame := by
  intro i s u h
  obtain ⟨t, t', e⟩ := exec_next h
  refine ⟨t, t', e.target, target?_of_set e.target e.sel e.targets, e.cfg, e.sel, e.hosts,
    by simp [e.targets], fun j hj => by rw [e.targets, List.getElem?_set_ne hj.symm],
    fun x => by rw [e.effect.tmem_eq], fun hi => ?_, fun hi => ?_, fun hi => ?_, fun hi => ?_,
    fun hi => ?_, e.effect.busy_wait_eq⟩
  · exact e.effect.get_eq .crc fun | _, .crc => hi rfl
  · exact e.effect.get_eq .addrMsw fun | _, .addrMsw v => hi v rfl
  · exact e.effect.get_eq .addrLsw fun | _, .addrLsw v => hi v rfl
  · exact e.effect.get_eq .dataMsw fun | _, .dataMsw v => hi v rfl
  · exact e.effect.get_eq .dataLsw fun | _, .dataLsw v => hi v rfl

/-! ### The engine's commit (R104) -/

theorem Block.commitEnabled_iff (b : Block) :
    b.commitEnabled = true ↔ b.busy = true ∧ b.fault = none ∧ b.refused = none := by
  simp [Block.commitEnabled, Block.stopped_eq_false_iff]

/-- Settles O31: with the halves written and the address writable the commit answers the committed
record. -/
theorem commitStoresWord : Obligations.CommitStoresWord := by
  refine ⟨Block.commitEnabled_iff, fun c b ah al dh dl hah hal hdh hdl haligned hvalid => ?_⟩
  have hw : writable c (ah ++ al) = true := by
    simp [writable, wordAligned_append ah (beq_iff_eq.mpr haligned), hvalid]
  refine ⟨b.committed (ah ++ al) (dh ++ dl),
    commit_of (Block.pointer?_of_halves hah hal) (Block.dataWord?_of_halves hdh hdl) hw,
    Memory.readWord_writeWord_same _ _ _, fun x hx => Memory.read_writeWord_other _ _ hx, rfl,
    fun htop => ?_, fun hne => ?_, rfl, rfl, rfl, rfl, rfl⟩
  · simp [nextPointer, htop]
  · simp [nextPointer, hne, upperHalf, lowerHalf]

end Sys2Proof.Machine
end

section
/-! PROOFS. The host's procedures (42_host_protocol.md) apart from the machine: the check of a blob, the
words of a segment and their local CRC, the answers to a poll and to the comparison, and the
procedures against a stand-in. -/

namespace Sys2Proof.Machine

/-! ### The blob's check (R126) -/

/-- A bit in which two messages differ stands in a byte in which they differ. -/
theorem getD_ne_of_messageBit_ne {d e : List Byte} {n : Nat} (h : messageBit d n ≠ messageBit e n) :
    d.getD (n / 8) 0#8 ≠ e.getD (n / 8) 0#8 :=
  fun heq => h (by rw [messageBit, messageBit, heq])

/-- Messages with one byte exchanged agree in every other place. -/
theorem getD_append_singleton_of_ne (pre post : List Byte) (x y : Byte) {i : Nat} (hi : i ≠ pre.length) :
    (pre ++ [x] ++ post).getD i 0#8 = (pre ++ [y] ++ post).getD i 0#8 := by
  simp only [List.append_assoc, List.getD_eq_getElem?_getD, List.getElem?_append, List.singleton_append]
  split
  · rfl
  · rw [List.getElem?_cons, List.getElem?_cons, if_neg (by omega), if_neg (by omega)]

/-- One byte exchanged is a burst of eight bits, which the checksum tells (R78). -/
theorem crc16_ne_of_byte_ne (seed : Half) (pre post : List Byte) {x y : Byte} (hxy : x ≠ y) :
    crc16 seed (pre ++ [x] ++ post) ≠ crc16 seed (pre ++ [y] ++ post) := by
  refine crcDetectsBurst seed _ _ (8 * pre.length) (by simp) (by simpa using hxy) fun n _ hbit => ?_
  have hplace : n / 8 = pre.length := by
    by_contra hne
    exact getD_ne_of_messageBit_ne hbit (getD_append_singleton_of_ne pre post x y hne)
  omega

/-- A blob that passes holds its body's checksum. -/
theorem crc16_of_blobCrcOk {seed : Half} {body : List Byte} {hi lo : Byte}
    (h : blobCrcOk seed (body ++ [hi, lo]) = .ok) : crc16 seed body = hi ++ lo := by
  by_contra hne
  rw [blobCrcOk_append, if_neg hne] at h
  cases h

/-- Settles O18: the trailer is the old body's checksum, and the new body's is another. -/
theorem mutatedBlobFails : Obligations.MutatedBlobFails := by
  intro seed pre post x y hi lo hxy hok
  have hne : crc16 seed (pre ++ [y] ++ post) ≠ hi ++ lo := fun h =>
    crc16_ne_of_byte_ne seed pre post hxy ((crc16_of_blobCrcOk hok).trans h.symm)
  exact ⟨_, hne, by rw [blobCrcOk_append, if_neg hne]⟩

/-- Settles O57: a boot attempt is by cases on its check. -/
theorem checkBeforeTouch : Obligations.CheckBeforeTouch := by
  intro c k blob dbase ibase dram iram
  refine ⟨fun e he => ?_, fun hok => ?_⟩
  · simp [bootAttempt, blobChk, he]
  · simp [bootAttempt, blobChk, hok]

/-! ### The words of a segment and their CRC (R121, R122) -/

/-- The four bytes of a packed word in their places (R35, R121). -/
theorem packWord_eq_or (b0 b1 b2 b3 : Byte) :
    packWord b0 b1 b2 b3 = b0.setWidth 32 ||| b1.setWidth 32 <<< 8 ||| b2.setWidth 32 <<< 16 |||
      b3.setWidth 32 <<< 24 := by
  have hge (b : Byte) {j : Nat} (hj : 8 ≤ j) : b.getLsbD j = false := b.getLsbD_of_ge j hj
  apply BitVec.eq_of_getLsbD_eq
  intro i hi
  simp only [packWord, BitVec.getLsbD_append, BitVec.getLsbD_or, BitVec.getLsbD_shiftLeft,
    BitVec.getLsbD_setWidth]
  grind

theorem wordsOf_length (d : List Byte) : (wordsOf d).length = (d.length + 3) / 4 := by
  induction d using wordsOf.induct with
  | case1 | case2 | case3 | case4 => simp [wordsOf]
  | case5 b0 b1 b2 b3 rest ih =>
    rw [wordsOf_cons4, List.length_cons, ih]
    simp only [List.length_cons]
    omega

/-- The word in place `i` is packed from the four bytes from `4 * i` on, zero where there is none. -/
theorem wordsOf_getElem? {d : List Byte} {i : Nat} (hi : i < (wordsOf d).length) :
    (wordsOf d)[i]? = some (packWord (d.getD (4 * i) 0#8) (d.getD (4 * i + 1) 0#8)
      (d.getD (4 * i + 2) 0#8) (d.getD (4 * i + 3) 0#8)) := by
  induction d using wordsOf.induct generalizing i with
  | case1 => simp at hi
  | case2 | case3 | case4 =>
    obtain rfl : i = 0 := by simpa [wordsOf] using hi
    rfl
  | case5 b0 b1 b2 b3 rest ih =>
    cases i with
    | zero => rfl
    | succ i => simpa [wordsOf_cons4, Nat.mul_add] using ih (by simpa using hi)

/-- Settles O50: the words by the recursion over the chunks, their bytes by `packWord`. -/
theorem wordsOfSegment : Obligations.WordsOfSegment := by
  refine fun d => ⟨wordsOf_length d, fun i hi => ?_⟩
  rw [wordsOf_getElem? (by rwa [wordsOf_length]), packWord_eq_or]

/-- Settles O51: both are the fold over the words' bytes. -/
theorem localCrcOverWords : Obligations.LocalCrcOverWords := by
  intro c ws
  rw [crc16, List.foldl_flatMap]
  rfl

/-! ### A poll and the comparison (R120, R124) -/

/-- Settles O52, by the definitions of the request and of the answer. -/
theorem pollWaitsForBusyClear : Obligations.PollWaitsForBusyClear :=
  fun _ _ _ _ _ => ⟨rfl, rfl⟩

/-- Settles O53: the two ends of the comparison. -/
theorem comparisonEndsLoad : Obligations.ComparisonEndsLoad :=
  fun _ _ _ _ _ _ _ => ⟨rfl, fun h => if_pos h, fun h => if_neg h⟩

/-! ### The host against a stand-in (R129) -/

/-- Against the stand-in `f`, the operation at the head of a script is the transaction `p`, after which
the agent goes on behind it. -/
def Passes (c : Config) (f : TxWord → Half) (op : HostOp) (p : Nat × TxWord) : Prop :=
  ∀ rest res, HostAgent.request c ⟨op :: rest, res⟩ = some p ∧
    HostAgent.respond c ⟨op :: rest, res⟩ (some (f p.2)) = ⟨rest, res⟩

theorem passes_issueOp {c : Config} {f : TxWord → Half} {k : Nat} {i : Instr} :
    Passes c f (issueOp c k i) (k, encode c i) :=
  fun _ _ => ⟨rfl, rfl⟩

/-- A poll ends at once when the value read has the busy bit clear (R120). -/
theorem passes_poll {c : Config} {f : TxWord → Half} (k : Nat)
    (hpoll : (f (encode c .rdCtrl)).getLsbD c.bitBusy.val = false) :
    Passes c f (.poll k) (k, encode c .rdCtrl) :=
  fun _ _ => ⟨rfl, if_neg (Bool.eq_false_iff.mp hpoll)⟩

section
variable {c : Config} {f : TxWord → Half}

/-- Operations that pass are issued in order, one a turn. -/
theorem runAgainst_passes {ops : List HostOp} {log : List (Nat × TxWord)}
    (h : List.Forall₂ (Passes c f) ops log) (n : Nat) (rest : List HostOp)
    (res : Option (HostResult TransferError)) :
    HostAgent.runAgainst c (standIn f) (log.length + n) ⟨ops ++ rest, res⟩ () =
      ((log ++ (HostAgent.runAgainst c (standIn f) n ⟨rest, res⟩ ()).1,
        (HostAgent.runAgainst c (standIn f) n ⟨rest, res⟩ ()).2)) := by
  induction h with
  | nil => simp
  | @cons op p ops log hop _ ih =>
    obtain ⟨hreq, hresp⟩ := hop (ops ++ rest) res
    rw [List.length_cons, Nat.add_right_comm, List.cons_append, HostAgent.runAgainst, hreq]
    simp only [standIn] at ih ⊢
    rw [hresp, ih]
    rfl

/-- An agent at the end of its script issues nothing more. -/
theorem runAgainst_nil (n : Nat) (res : Option (HostResult TransferError)) :
    HostAgent.runAgainst c (standIn f) n ⟨[], res⟩ () = ([], ⟨[], res⟩, ()) := by
  induction n with
  | zero => rfl
  | succ n ih => exact ih

/-- A refused procedure issues nothing more of itself (R123, log 21). -/
theorem runAgainst_refuse (n k : Nat) (r : Refuse) (more : Nat) (rest : List HostOp)
    (res : Option (HostResult TransferError)) :
    HostAgent.runAgainst c (standIn f) (n + 1) ⟨.refuse k r more :: rest, res⟩ () =
      HostAgent.runAgainst c (standIn f) n ⟨rest.drop more, none⟩ () := rfl

/-- The operations of a load before its comparison, and their transactions (R123). -/
theorem loadSegTransactions_passes {k : Nat} (base : Word) (data : List Byte)
    (hpoll : (f (encode c .rdCtrl)).getLsbD c.bitBusy.val = false) :
    ∃ log, loadSegTransactions c k base data = log ++ [(k, encode c .rdCrc)] ∧
      List.Forall₂ (Passes c f)
        ([issueOp c k .mbCrcrst] ++ setAddr c k base ++ pushWords c k (wordsOf data)) log := by
  have hwords (ws : List Word) : List.Forall₂ (Passes c f) (pushWords c k ws)
      ((ws.flatMap fun w => [encode c (.wrDatah (upperHalf w)), encode c (.wrDatal (lowerHalf w)),
        encode c .mbXwr, encode c .rdCtrl]).map fun w => (k, w)) := by
    induction ws with
    | nil => exact .nil
    | cons w ws ih =>
      exact .cons passes_issueOp <| .cons passes_issueOp <| .cons passes_issueOp <|
        .cons (passes_poll k hpoll) ih
  exact ⟨_, List.map_append,
    .cons passes_issueOp <| .cons passes_issueOp <| .cons passes_issueOp <| hwords _⟩

/-- The comparison takes the stand-in's value for `RD.CRC` (R124). -/
theorem runAgainst_check (n k : Nat) (l : Half) (more : Nat) (rest : List HostOp)
    (res : Option (HostResult TransferError)) :
    HostAgent.runAgainst c (standIn f) (n + 1) ⟨.check k l more :: rest, res⟩ () =
      ((k, encode c .rdCrc) :: (HostAgent.runAgainst c (standIn f) n
          (HostAgent.compare res rest more l (f (encode c .rdCrc))) ()).1,
        (HostAgent.runAgainst c (standIn f) n
          (HostAgent.compare res rest more l (f (encode c .rdCrc))) ()).2) := rfl

/-- The two ways to say that a base is aligned (R36). -/
theorem wordAligned_of_lowBits {base : Word} (h : base.extractLsb' 0 2 = 0#2) :
    wordAligned base = true :=
  beq_iff_eq.mpr h

/-- A load at an aligned base issues its transactions, compares, and its agent goes on from there. -/
theorem runAgainst_loadSegWithin {k : Nat} {base : Word} (data : List Byte)
    (hpoll : (f (encode c .rdCtrl)).getLsbD c.bitBusy.val = false) (hbase : base.extractLsb' 0 2 = 0#2)
    (n more : Nat) (rest : List HostOp) (res : Option (HostResult TransferError)) {h : HostAgent}
    (hh : HostAgent.compare res rest more (localCrc c (wordsOf data)) (f (encode c .rdCrc)) = h) :
    HostAgent.runAgainst c (standIn f) ((loadSegTransactions c k base data).length + n)
        ⟨loadSegWithin c k base data more ++ rest, res⟩ () =
      (loadSegTransactions c k base data ++ (HostAgent.runAgainst c (standIn f) n h ()).1,
        (HostAgent.runAgainst c (standIn f) n h ()).2) := by
  obtain ⟨log, hlog, hpass⟩ := loadSegTransactions_passes (k := k) base data hpoll
  rw [hlog, List.length_append, Nat.add_assoc, loadSegWithin, if_pos (wordAligned_of_lowBits hbase),
    loadSegOps, List.append_assoc, runAgainst_passes hpass, List.singleton_append, List.length_singleton,
    Nat.add_comm 1 n, runAgainst_check, hh, List.append_assoc]
  rfl

end

theorem loadSegTransactions_length_pos (c : Config) (k : Nat) (base : Word) (data : List Byte) :
    0 < (loadSegTransactions c k base data).length := by
  simp [loadSegTransactions]

theorem loadSegWithin_ne_nil (c : Config) (k : Nat) (base : Word) (data : List Byte) (more : Nat) :
    loadSegWithin c k base data more ≠ [] := by
  unfold loadSegWithin loadSegOps
  split <;> simp

/-- A load at a misaligned base issues nothing, and its agent goes on behind the procedure. -/
theorem runAgainst_loadSegWithin_misaligned {c : Config} {f : TxWord → Half} {k : Nat} {base : Word}
    (data : List Byte) (hbase : base.extractLsb' 0 2 ≠ 0#2) {n : Nat} (hn : 0 < n) (rest : List HostOp)
    (res : Option (HostResult TransferError)) :
    HostAgent.runAgainst c (standIn f) n ⟨loadSegWithin c k base data rest.length ++ rest, res⟩ () =
      ([], ⟨[], none⟩, ()) := by
  obtain ⟨n, rfl⟩ := Nat.exists_eq_succ_of_ne_zero hn.ne'
  rw [loadSegWithin_misaligned hbase, List.singleton_append, runAgainst_refuse, List.drop_length,
    runAgainst_nil]

/-- A `LOADSEG` against a stand-in, at the end of whose script the agent then is. -/
theorem runAgainst_loadSeg (c : Config) (k : Nat) (f : TxWord → Half) (base : Word) (data : List Byte)
    (n : Nat) (hpoll : (f (encode c .rdCtrl)).getLsbD c.bitBusy.val = false)
    (hn : (loadSegTransactions c k base data).length ≤ n) :
    HostAgent.runAgainst c (standIn f) n (HostAgent.start (loadSeg c k base data)) () =
      if base.extractLsb' 0 2 = 0#2 then
        (loadSegTransactions c k base data,
          ⟨[], some (if f (encode c .rdCrc) = localCrc c (wordsOf data) then .ok
            else .err (.crcMismatch (localCrc c (wordsOf data)) (f (encode c .rdCrc))))⟩, ())
      else ([], ⟨[], none⟩, ()) := by
  have hstart : HostAgent.start (loadSeg c k base data) =
      ⟨loadSegWithin c k base data 0 ++ [], none⟩ := by simp [HostAgent.start, loadSeg]
  rw [hstart]
  split
  · next hbase =>
    obtain ⟨m, rfl⟩ := Nat.exists_eq_add_of_le hn
    rw [runAgainst_loadSegWithin data hpoll hbase m 0 [] none rfl, HostAgent.compare]
    split <;> simp [runAgainst_nil]
  · next hbase =>
    exact runAgainst_loadSegWithin_misaligned data hbase
      (Nat.lt_of_lt_of_le (loadSegTransactions_length_pos c k base data) hn) [] none

/-- Settles O55: a `LOADFW` is its first segment within a procedure, and then a `LOADSEG`. -/
theorem loadAgainstStandIn : Obligations.LoadAgainstStandIn := by
  refine ⟨runAgainst_loadSeg, fun c k f dbase ibase dram iram n hpoll hn => ?_⟩
  have hpos := loadSegTransactions_length_pos c k dbase dram
  refine ⟨fun hd => ?_, fun hd hne => ?_, fun hd heq => ?_⟩
  · exact runAgainst_loadSegWithin_misaligned dram hd (by omega) (loadSeg c k ibase iram) none
  · obtain ⟨m, rfl⟩ := Nat.exists_eq_add_of_le (Nat.le_of_add_right_le hn)
    rw [HostAgent.start, loadFw,
      runAgainst_loadSegWithin dram hpoll hd m _ _ none (if_neg hne), List.drop_length, runAgainst_nil,
      List.append_nil]
  · obtain ⟨m, rfl⟩ := Nat.exists_eq_add_of_le (Nat.le_of_add_right_le hn)
    have hmore : (loadSeg c k ibase iram).length ≠ 0 :=
      fun h => loadSegWithin_ne_nil c k ibase iram 0 (List.eq_nil_of_length_eq_zero h)
    have hsecond := runAgainst_loadSeg c k f ibase iram m hpoll (by omega)
    rw [HostAgent.start] at hsecond
    rw [HostAgent.start, loadFw,
      runAgainst_loadSegWithin dram hpoll hd m _ _ none (if_pos heq), if_neg hmore, hsecond]
    split <;> simp

end Sys2Proof.Machine
end

section
/-! PROOFS. A `LOADSEG` against the machine (42_host_protocol.md R125): the record while the words of a
segment are stored, what the loading agent still has to do from a record, that every step keeps it on
its way, and that the way has an end under some turns. -/

namespace Sys2Proof.Machine

/-! ### The record during a load (R106, R125) -/

/-- The first `4 * i` bytes of a segment give its first `i` words. -/
theorem wordsOf_take (data : List Byte) (i : Nat) :
    wordsOf (data.take (4 * i)) = (wordsOf data).take i := by
  induction data using wordsOf.induct generalizing i with
  | case1 => simp
  | case2 | case3 | case4 => cases i <;> simp [wordsOf, Nat.mul_add]
  | case5 b0 b1 b2 b3 rest ih => cases i <;> simp [Nat.mul_add, ih]

theorem upperHalf_append_lowerHalf (w : Word) : upperHalf w ++ lowerHalf w = w :=
  BitVec.extractLsb'_append_extractLsb'

/-- A pair of halves put together from a word's is that word; none makes none. -/
theorem joinHalves_map (w : Option Word) : joinHalves (w.map upperHalf) (w.map lowerHalf) = w := by
  cases w with
  | none => rfl
  | some w => exact congrArg some (upperHalf_append_lowerHalf w)

theorem Block.committed_pointer? (b : Block) (a d : Word) :
    (b.committed a d).pointer? = nextPointer a :=
  joinHalves_map _

theorem Block.setPointer_pointer? (b : Block) (a : Word) : (b.setPointer (some a)).pointer? = some a :=
  joinHalves_map (some a)

theorem Block.setData_dataWord? (b : Block) (d : Word) : (b.setData (some d)).dataWord? = some d :=
  joinHalves_map (some d)

/-- The record once the accumulator is reset and the base is set holds a segment of no bytes. -/
theorem SegmentStored.nil {b : Block} (hs : b.stopped = false) (hidle : b.busy = false) (c : Config)
    (base : Word) :
    SegmentStored c base [] b ((b.set .crc (some c.crcInit)).setPointer (some base)) where
  words := by simp
  elsewhere := fun _ _ => rfl
  crc := rfl
  pointer := by
    have hlt := base.isLt
    rw [Block.setPointer_pointer?, wordsOf_nil, List.length_nil, if_neg (by omega)]
    simp
  dataMsw := rfl
  dataLsw := rfl
  busy := hidle
  fault := ((Block.stopped_eq_false_iff b).mp hs).1
  refused := ((Block.stopped_eq_false_iff b).mp hs).2

section
variable {c : Config} {base : Word} {d : List Byte} {b b' : Block}

theorem SegmentStored.stopped (h : SegmentStored c base d b b') : b'.stopped = false :=
  Block.not_stopped h.fault h.refused

/-- The pointer stands past what is stored, while there is room behind it. -/
theorem SegmentStored.pointer_of_room (h : SegmentStored c base d b b')
    (hroom : base.toNat + 4 * ((wordsOf d).length + 1) ≤ 2 ^ 32) :
    b'.pointer? = some (base + BitVec.ofNat 32 (4 * (wordsOf d).length)) := by
  rw [h.pointer, if_neg (by omega)]

/-- The address of the word in place `i` of a segment inside the space. -/
theorem toNat_wordAddress {i : Nat} (h : base.toNat + 4 * i < 2 ^ 32) :
    (base + BitVec.ofNat 32 (4 * i)).toNat = base.toNat + 4 * i := by
  rw [BitVec.toNat_add, BitVec.toNat_ofNat]
  omega

theorem wordAligned_wordAddress (hbase : wordAligned base = true) {i : Nat}
    (h : base.toNat + 4 * i < 2 ^ 32) : wordAligned (base + BitVec.ofNat 32 (4 * i)) = true := by
  have hmod := (wordAligned_bound hbase).1
  simp only [wordAligned, beq_iff_eq]
  apply BitVec.eq_of_toNat_eq
  rw [BitVec.extractLsb'_toNat, toNat_wordAddress h]
  simp
  omega

/-- The commit of the segment's next word at the pointer stores one word more of it (R104). -/
theorem SegmentStored.commit {d' : List Byte} {w : Word} (h : SegmentStored c base d b b')
    (hd' : wordsOf d' = wordsOf d ++ [w]) (hbase : wordAligned base = true)
    (hroom : base.toNat + 4 * ((wordsOf d).length + 1) ≤ 2 ^ 32) :
    SegmentStored c base d' b
      (b'.committed (base + BitVec.ofNat 32 (4 * (wordsOf d).length)) w) where
  words := by
    intro i hi
    have haddr := toNat_wordAddress (base := base) (i := (wordsOf d).length) (by omega)
    rw [hd', List.length_append, List.length_singleton] at hi
    rw [Block.committed_tmem, hd']
    by_cases hlast : i = (wordsOf d).length
    · rw [hlast, Memory.readWord_writeWord_same, List.getElem?_concat_length]
    · rw [Memory.readWord_writeWord_other _ _ (wordAligned_wordAddress hbase (by omega))
          (wordAligned_wordAddress hbase (by omega)), List.getElem?_append_left (by omega),
        h.words i (by omega)]
      intro heq
      have := congrArg BitVec.toNat heq
      rw [haddr, toNat_wordAddress (by omega)] at this
      omega
  elsewhere := by
    intro a ha
    rw [hd', List.length_append, List.length_singleton] at ha
    have haddr := toNat_wordAddress (base := base) (i := (wordsOf d).length) (by omega)
    rw [Block.committed_tmem, Memory.read_writeWord_other _ _ (by omega), h.elsewhere a (by omega)]
  crc := by
    rw [Block.committed_crc, h.crc, hd']
    simp [localCrc]
  pointer := by
    have haddr := toNat_wordAddress (base := base) (i := (wordsOf d).length) (by omega)
    have htop : base + BitVec.ofNat 32 (4 * (wordsOf d).length) = 0xFFFFFFFC#32 ↔
        base.toNat + 4 * ((wordsOf d).length + 1) = 2 ^ 32 := by
      rw [← BitVec.toNat_inj, haddr]
      simp
      omega
    rw [Block.committed_pointer?, nextPointer, hd', List.length_append, List.length_singleton]
    simp only [htop]
    rw [Nat.mul_add, BitVec.ofNat_add, BitVec.add_assoc]
  dataMsw := by
    rw [if_neg (by rintro rfl; simp at hd')]
    rfl
  dataLsw := by
    rw [if_neg (by rintro rfl; simp at hd')]
    rfl
  busy := rfl
  fault := h.fault
  refused := h.refused

end

/-- The alignment of a word is that of its lower half (R36). -/
theorem aligned_lowerHalf (w : Word) : (lowerHalf w).aligned = wordAligned w := by
  have h : (lowerHalf w).extractLsb' 0 2 = w.extractLsb' 0 2 := by
    apply BitVec.eq_of_toNat_eq
    simp only [lowerHalf, BitVec.extractLsb'_toNat]
    omega
  rw [Half.aligned, wordAligned, h]

/-! ### What a load still has to do (R120, R123, R124) -/

/-- From the record `b` of target `k` the agent comes to `Q` by its own operations without a mark,
whenever the engine commits: each operation finds the record as its rule asks (R91 to R99). -/
inductive Runs (c : Config) (k : Nat) (Q : HostAgent → Block → Prop) : HostAgent → Block → Prop where
  /-- The agent is there. -/
  | done {h : HostAgent} {b : Block} (hQ : Q h b) : Runs c k Q h b
  /-- A register write, which needs no word in flight. -/
  | write {b : Block} {i : Instr} {r : Reg} {v : Half} {rest : List HostOp}
      {res : Option (HostResult TransferError)} (hs : b.stopped = false) (hidle : b.busy = false)
      (hwf : i.wf = true) (hw : Writes c i r v) (next : Runs c k Q ⟨rest, res⟩ (b.set r (some v))) :
      Runs c k Q ⟨issueOp c k i :: rest, res⟩ b
  /-- `MB.XWR` with all its operands, which leaves the word in flight. -/
  | accept {b : Block} {a d : Word} {rest : List HostOp} {res : Option (HostResult TransferError)}
      (hs : b.stopped = false) (hidle : b.busy = false) (ha : b.pointer? = some a)
      (hd : b.dataWord? = some d) (hv : tmemValid c a = true)
      (next : Runs c k Q ⟨rest, res⟩ { b with busy := true }) :
      Runs c k Q ⟨issueOp c k .mbXwr :: rest, res⟩ b
  /-- A poll while the word is in flight, which the engine is to commit. -/
  | inFlight {b b' : Block} {rest : List HostOp} {res : Option (HostResult TransferError)}
      (hs : b.stopped = false) (hbusy : b.busy = true) (hcommit : commit c b = .ok b')
      (next : Runs c k Q ⟨rest, res⟩ b') : Runs c k Q ⟨.poll k :: rest, res⟩ b
  /-- A poll with no word in flight. -/
  | landed {b : Block} {rest : List HostOp} {res : Option (HostResult TransferError)}
      (hs : b.stopped = false) (hidle : b.busy = false) (next : Runs c k Q ⟨rest, res⟩ b) :
      Runs c k Q ⟨.poll k :: rest, res⟩ b
  /-- `RD.CRC` of a written accumulator, and the comparison. -/
  | check {b : Block} {l v : Half} {more : Nat} {rest : List HostOp}
      {res : Option (HostResult TransferError)} (hs : b.stopped = false) (hidle : b.busy = false)
      (hcrc : b.crc = some v) (next : Runs c k Q (HostAgent.compare res rest more l v) b) :
      Runs c k Q ⟨.check k l more :: rest, res⟩ b

section
variable {c : Config} {k : Nat} {Q : HostAgent → Block → Prop} {rest : List HostOp}
  {res : Option (HostResult TransferError)}

/-- A word pushed at a valid pointer is committed before the poll ends (R104, R123). -/
theorem Runs.pushWord {b : Block} {a : Word} (w : Word) (hs : b.stopped = false)
    (hidle : b.busy = false) (ha : b.pointer? = some a) (hw : writable c a = true)
    (next : Runs c k Q ⟨rest, res⟩ (b.committed a w)) :
    Runs c k Q ⟨pushWord c k w ++ rest, res⟩ b := by
  have hv : tmemValid c a = true := (Bool.and_eq_true_iff.mp hw).2
  have hd := b.setData_dataWord? w
  exact .write hs hidle rfl (.dataMsw _) <| .write hs hidle rfl (.dataLsw _) <|
    .accept hs hidle ha hd hv <| .inFlight hs rfl (commit_of ha hd hw) next

/-- The words of a segment from the place `i` on, the ones before being stored. -/
theorem Runs.pushWords {base : Word} {data : List Byte} {b₀ : Block} (hbase : wordAligned base = true)
    (hroom : base.toNat + 4 * (wordsOf data).length ≤ 2 ^ 32)
    (hvalid : ∀ i, i < (wordsOf data).length → tmemValid c (base + BitVec.ofNat 32 (4 * i)) = true)
    (next : ∀ b, SegmentStored c base data b₀ b → Runs c k Q ⟨rest, res⟩ b) (ws : List Word) :
    ∀ {i : Nat} {b : Block}, (wordsOf data).drop i = ws →
      SegmentStored c base (data.take (4 * i)) b₀ b →
      Runs c k Q ⟨Machine.pushWords c k ws ++ rest, res⟩ b := by
  induction ws with
  | nil =>
    intro i b hdrop hb
    have hall : data.take (4 * i) = data := by
      have hlen := List.drop_eq_nil_iff.mp hdrop
      rw [wordsOf_length] at hlen
      exact List.take_of_length_le (by omega)
    exact next b (hall ▸ hb)
  | cons w ws ih =>
    intro i b hdrop hb
    have hi : i < (wordsOf data).length := by
      by_contra hge
      rw [List.drop_of_length_le (by omega)] at hdrop
      cases hdrop
    rw [List.drop_eq_getElem_cons hi, List.cons.injEq] at hdrop
    obtain ⟨rfl, hdrop⟩ := hdrop
    have hlen : (wordsOf (data.take (4 * i))).length = i := by
      rw [wordsOf_take, List.length_take, Nat.min_eq_left hi.le]
    have hnext : wordsOf (data.take (4 * (i + 1))) =
        wordsOf (data.take (4 * i)) ++ [(wordsOf data)[i]] := by
      rw [wordsOf_take, wordsOf_take, List.take_succ_eq_append_getElem hi]
    have hptr := hb.pointer_of_room (by rw [hlen]; omega)
    have hcommit := hb.commit hnext hbase (by rw [hlen]; omega)
    rw [hlen] at hptr hcommit
    rw [Machine.pushWords, List.append_assoc]
    exact .pushWord _ hb.stopped hb.busy hptr
      (by rw [writable, wordAligned_wordAddress hbase (by omega), hvalid i hi]; rfl) (ih hdrop hcommit)

/-- A load at an aligned base runs to its end, with the words stored and the comparison equal (R125). -/
theorem Runs.loadSegWithin {base : Word} {data : List Byte} {b : Block} (more : Nat)
    (hs : b.stopped = false) (hidle : b.busy = false) (hbase : wordAligned base = true)
    (hroom : base.toNat + 4 * (wordsOf data).length ≤ 2 ^ 32)
    (hvalid : ∀ i, i < (wordsOf data).length → tmemValid c (base + BitVec.ofNat 32 (4 * i)) = true)
    (hQ : ∀ b', SegmentStored c base data b b' → Q ⟨rest, if more = 0 then some .ok else res⟩ b') :
    Runs c k Q ⟨loadSegWithin c k base data more ++ rest, res⟩ b := by
  have hal : (lowerHalf base).aligned = true := by rw [aligned_lowerHalf, hbase]
  rw [Machine.loadSegWithin, if_pos hbase, loadSegOps, List.append_assoc, List.append_assoc]
  refine .write hs hidle rfl .crc <| .write hs hidle rfl (.addrMsw _) <|
    .write hs hidle hal (.addrLsw _) <|
    .pushWords hbase hroom hvalid (fun b' hb' => .check hb'.stopped hb'.busy hb'.crc ?_) _
      List.drop_zero (SegmentStored.nil hs hidle c base)
  rw [HostAgent.compare, if_pos rfl]
  exact .done (hQ b' hb')

end

/-! ### One move of the loading agent (R90, R120, R124) -/

section
variable {s : State} {h : HostAgent} {n k : Nat}

/-- A move of the hosts whose next operation is a request issues its word. -/
theorem hostMove_request {w : TxWord} (hm : s.mover = some (h, n)) (hq : h.request s.cfg = some (k, w)) :
    hostMove s = mapNext (State.hostLearns h n) (issue k w s.takeTurn) := by
  obtain ⟨op, rest, hscript, -⟩ := request_target hq
  cases op with
  | refuse => simp [HostAgent.request, hscript] at hq
  | tx | poll | check => simp [hostMove, hm, hscript, hq]

/-- With no engine due the step runs the mover's request, and the mover learns what was returned. -/
theorem step_of_request {i : Instr} {v : State} {x' : Target} (hc : s.cfg.wf = true) (hi : i.wf = true)
    (hdue : s.due = none) (hm : s.mover = some (h, n))
    (hq : h.request s.cfg = some (k, encode s.cfg i))
    (hv : exec i (s.tick.takeTurn.select k) = .next v) (hx' : v.target? = some x') :
    ∃ u, step s = .next u ∧ u.cfg = s.cfg ∧ u.hosts = s.hosts.set n (h.respond s.cfg v.reply) ∧
      u.targets[k]? = some x' ∧ u.targets = v.targets := by
  have hd : decode s.tick.takeTurn.cfg (encode s.cfg i) = .instr i := by
    simpa using decodeOfEncode s.cfg i hc hi
  obtain ⟨_, _, e⟩ := exec_next hv
  have hcfg : v.cfg = s.cfg := by simpa using e.cfg
  have hhosts : v.hosts = s.hosts := by simpa using e.hosts
  have hsel : v.sel = k := e.sel
  refine ⟨v.hostLearns h n, ?_, hcfg, by rw [State.hostLearns_hosts, hcfg, hhosts], hsel ▸ hx', rfl⟩
  simp only [step, hdue]
  rw [hostMove_request (s.tick_mover.trans hm) hq, issue_of_instr hd, hv, mapNext_of_next]

/-- A register write on a running target with no word in flight completes (R91 to R96). -/
theorem exec_writes {t : Target} {i : Instr} {r : Reg} {v : Half} (hw : Writes s.cfg i r v)
    (hi : i.wf = true) (ht : s.target? = some t) (hs : t.block.stopped = false)
    (hidle : t.block.busy = false) :
    exec i s = .next (s.complete t (t.block.set r (some v)) none) := by
  cases hw with
  | crc => exact exec_mbCrcrst_idle ht hs hidle
  | addrMsw v => exact writeHalf_idle ht hs hidle ..
  | addrLsw v => exact (exec_wrAddrl_of_aligned s hi).trans (writeHalf_idle ht hs hidle ..)
  | dataMsw v => exact writeHalf_idle ht hs hidle ..
  | dataLsw v => exact writeHalf_idle ht hs hidle ..

/-- A poll ends exactly when no word is in flight (R18, R98, R120). -/
theorem respond_poll (c : Config) (k : Nat) (rest : List HostOp)
    (res : Option (HostResult TransferError)) (busy : Bool) (r : Half) :
    HostAgent.respond c ⟨.poll k :: rest, res⟩ (some (controlValue c busy r)) =
      if busy = true then ⟨.poll k :: rest, res⟩ else ⟨rest, res⟩ := by
  rw [(pollWaitsForBusyClear c k rest res _).2, controlValue, withBit_getLsbD, if_pos rfl]

/-- After a comparison the agent stands somewhere behind it. -/
theorem compare_script_suffix (res : Option (HostResult TransferError)) (rest : List HostOp) (more : Nat)
    (l v : Half) : (HostAgent.compare res rest more l v).script <:+ rest := by
  unfold HostAgent.compare
  split
  · exact List.suffix_refl rest
  · exact List.drop_suffix more rest

/-- A move of the agent on its way to `Q` completes its next operation, or reads that the word is still
in flight. -/
theorem Runs.move {Q : HostAgent → Block → Prop} {x : Target} (hr : Runs s.cfg k Q h x.block)
    (hQ : ¬ Q h x.block) (hc : s.cfg.wf = true) (hx : s.targets[k]? = some x) (hdue : s.due = none)
    (hm : s.mover = some (h, n)) :
    ∃ u h' x', step s = .next u ∧ u.cfg = s.cfg ∧ u.hosts = s.hosts.set n h' ∧
      u.targets[k]? = some x' ∧ Runs s.cfg k Q h' x'.block ∧
      (h'.script.length < h.script.length ∨
        h' = h ∧ x.block.busy = true ∧ u.targets = s.targets.map Target.tick) := by
  have ht : (s.tick.takeTurn.select k).target? = some x.tick := by simp [hx]
  have hctrl : (s.tick.takeTurn.select k).cfg = s.cfg := by simp
  have hkept {f : Half → Half} : ((s.tick.takeTurn.select k).drawReply f).target? = some x.tick := by
    simpa [State.target?] using ht
  cases hr with
  | done h => exact absurd h hQ
  | write hs hidle hwf hw next =>
    obtain ⟨u, hu, hcfg, hhosts, hx', -⟩ := step_of_request hc hwf hdue hm rfl
      (exec_writes (by simpa using hw) hwf ht hs hidle) (target?_of_set ht rfl rfl)
    exact ⟨u, _, _, hu, hcfg, hhosts, hx', next, .inl (Nat.lt_succ_self _)⟩
  | accept hs hidle ha hd hv next =>
    obtain ⟨u, hu, hcfg, hhosts, hx', -⟩ := step_of_request hc rfl hdue hm rfl
      (exec_mbXwr_accepts ht hs hidle ha hd (by simpa using hv))
      (target?_of_set ht (State.acceptWord_sel ..) (State.acceptWord_targets ..))
    exact ⟨u, _, _, hu, hcfg, hhosts, hx', next, .inl (Nat.lt_succ_self _)⟩
  | inFlight hs hbusy hcommit next =>
    obtain ⟨u, hu, hcfg, hhosts, hx', htargets⟩ :=
      step_of_request hc rfl hdue hm rfl (exec_rdCtrl ht hs) hkept
    rw [State.drawReply_reply, hctrl, respond_poll, x.tick_block, if_pos hbusy] at hhosts
    exact ⟨u, _, _, hu, hcfg, hhosts, hx', .inFlight hs hbusy hcommit next,
      .inr ⟨rfl, hbusy, by simpa using htargets⟩⟩
  | landed hs hidle next =>
    obtain ⟨u, hu, hcfg, hhosts, hx', -⟩ :=
      step_of_request hc rfl hdue hm rfl (exec_rdCtrl ht hs) hkept
    rw [State.drawReply_reply, hctrl, respond_poll, x.tick_block, if_neg (by simp [hidle])] at hhosts
    exact ⟨u, _, _, hu, hcfg, hhosts, hx', next, .inl (Nat.lt_succ_self _)⟩
  | check hs hidle hcrc next =>
    obtain ⟨u, hu, hcfg, hhosts, hx', -⟩ := step_of_request hc rfl hdue hm rfl
      (exec_rdCrc_written ht hs hidle hcrc) ht
    exact ⟨u, _, _, hu, hcfg, hhosts, hx', next,
      .inl (Nat.lt_succ_of_le (compare_script_suffix ..).length_le)⟩

end

/-! ### What a step does to the agents (R8, R120 to R124, R152) -/

/-- An answer leaves an agent as it is, or brings it somewhere behind the operation it answers. -/
theorem respond_cases (c : Config) (h : HostAgent) (r : Option Half) :
    h.respond c r = h ∨ ∃ op rest, h.script = op :: rest ∧ (h.respond c r).script <:+ rest := by
  obtain ⟨script, res⟩ := h
  match script, r with
  | [], _ | .poll _ :: _, none | .check _ _ _ :: _, none => exact .inl rfl
  | .tx _ _ :: rest, _ => exact .inr ⟨_, rest, rfl, List.suffix_refl rest⟩
  | .refuse _ _ more :: rest, _ => exact .inr ⟨_, rest, rfl, List.drop_suffix more rest⟩
  | .poll k :: rest, some v =>
    rw [(pollWaitsForBusyClear c k rest res v).2]
    split
    · exact .inl rfl
    · exact .inr ⟨_, rest, rfl, List.suffix_refl rest⟩
  | .check _ _ _ :: rest, some _ => exact .inr ⟨_, rest, rfl, compare_script_suffix ..⟩

theorem respond_eq_or_shorter (c : Config) (h : HostAgent) (r : Option Half) :
    h.respond c r = h ∨ (h.respond c r).script.length < h.script.length := by
  refine (respond_cases c h r).imp_right fun ⟨op, rest, hscript, hsuffix⟩ => ?_
  rw [hscript]
  exact Nat.lt_succ_of_le hsuffix.length_le

theorem mem_script_of_respond {c : Config} {h : HostAgent} {r : Option Half} {op : HostOp}
    (hop : op ∈ (h.respond c r).script) : op ∈ h.script := by
  obtain heq | ⟨head, rest, hscript, hsuffix⟩ := respond_cases c h r
  · rwa [heq] at hop
  · rw [hscript]
    exact List.mem_cons_of_mem head (hsuffix.subset hop)

section
variable {s u : State} {h : HostAgent} {n k : Nat}

/-- The agent that moves learns an answer, and no other agent changes. -/
theorem hostMove_learns (hm : s.mover = some (h, n)) (hu : hostMove s = .next u) :
    ∃ v : State, v.hosts = s.hosts ∧ u = v.hostLearns h n := by
  obtain ⟨script, res⟩ := h
  cases script with
  | nil => exact absurd (mover_some hm).2 (by simp [HostAgent.ready])
  | cons op rest =>
    cases op with
    | refuse k r more =>
      rw [hostMove_refuse hm] at hu
      obtain ⟨v, hv, rfl⟩ := mapNext_next hu
      exact ⟨v, by rw [refuseBefore_hosts hv, State.takeTurn_hosts], rfl⟩
    | tx | poll | check =>
      rw [hostMove_request hm rfl] at hu
      obtain ⟨v, hv, rfl⟩ := mapNext_next hu
      exact ⟨v, by rw [issue_hosts hv, State.takeTurn_hosts], rfl⟩

theorem step_of_mover (hu : step s = .next u) (hdue : s.due = none) (hm : s.mover = some (h, n)) :
    ∃ c r, u.hosts = s.hosts.set n (h.respond c r) := by
  simp only [step, hdue] at hu
  obtain ⟨v, hv, rfl⟩ := hostMove_learns (s.tick_mover.trans hm) hu
  exact ⟨_, _, by rw [State.hostLearns_hosts, hv, State.tick_hosts]⟩

/-- A step leaves the agents alone, or the one that moves learns an answer. -/
theorem step_hosts (hu : step s = .next u) :
    u.hosts = s.hosts ∨
    ∃ h n c r, s.due = none ∧ s.mover = some (h, n) ∧ u.hosts = s.hosts.set n (h.respond c r) := by
  obtain heq | ⟨h, n, hdue, hm, -, -⟩ := hostAgentsInterleave.1 s u hu
  · exact .inl heq
  · obtain ⟨c, r, hhosts⟩ := step_of_mover hu hdue hm
    exact .inr ⟨h, n, c, r, hdue, hm, hhosts⟩

theorem step_agent (hu : step s = .next u) (hn : s.hosts[n]? = some h) :
    u.hosts[n]? = some h ∨ ∃ c r, u.hosts[n]? = some (h.respond c r) ∧ s.due = none ∧
      s.mover = some (h, n) := by
  obtain heq | ⟨g, m, c, r, hdue, hm, hhosts⟩ := step_hosts hu
  · exact .inl (heq ▸ hn)
  · by_cases hmn : m = n
    · subst hmn
      obtain rfl : h = g := Option.some.inj (hn.symm.trans (mover_some hm).1)
      have hlt := (List.getElem?_eq_some_iff.mp hn).1
      exact .inr ⟨c, r, by rw [hhosts, List.getElem?_set_self hlt], hdue, hm⟩
    · exact .inl (by rw [hhosts, List.getElem?_set_ne hmn, hn])

/-- No agent but `n` has an operation on target `k` to issue (R128). -/
def OnlyAgent (n k : Nat) (s : State) : Prop :=
  ∀ j h op, j ≠ n → s.hosts[j]? = some h → op ∈ h.script → op.target ≠ k

theorem OnlyAgent.of_step (ho : OnlyAgent n k s) (hu : step s = .next u) : OnlyAgent n k u := by
  intro j g op hj hg hop
  obtain heq | ⟨h, m, c, r, -, hm, hhosts⟩ := step_hosts hu
  · exact ho j g op hj (heq ▸ hg) hop
  · by_cases hmj : m = j
    · subst hmj
      have hh := (mover_some hm).1
      rw [hhosts, List.getElem?_set_self (List.getElem?_eq_some_iff.mp hh).1] at hg
      obtain rfl := Option.some.inj hg
      exact ho m h op hj hh (mem_script_of_respond hop)
    · rw [hhosts, List.getElem?_set_ne hmj] at hg
      exact ho j g op hj hg hop

/-- Neither the engine of target `k` nor agent `n` acts, the one agent that could address the target: the
record stays. -/
theorem OnlyAgent.keeps_block {x : Target} (ho : OnlyAgent n k s) (hu : step s = .next u)
    (hx : s.targets[k]? = some x) (hdue : s.due ≠ some k)
    (hm : ∀ h op rest, s.due = none → s.mover = some (h, n) → h.script = op :: rest → op.target ≠ k) :
    ∃ x', u.targets[k]? = some x' ∧ x'.block = x.block := by
  refine targetsAreIndependent s u k x hu hx hdue fun h m op rest hnone hmover hscript => ?_
  by_cases hmn : m = n
  · subst hmn
    exact hm h op rest hnone hmover hscript
  · exact ho m h op hmn (mover_some hmover).1 (hscript ▸ List.mem_cons_self)

end

/-! ### Every run of a load (R125) -/

/-- The load of `data` is over: its agent is `after`, and the record is as R106 says. -/
def LoadEnded (c : Config) (base : Word) (data : List Byte) (b₀ : Block) (after h : HostAgent)
    (b : Block) : Prop :=
  h = after ∧ SegmentStored c base data b₀ b

section
variable {s u : State} {h : HostAgent} {n k : Nat} {x : Target}

/-- A move on a target at rest with its accumulator written brings the agent behind its operation. -/
theorem step_at_rest (hc : s.cfg.wf = true) (hs : x.block.stopped = false)
    (hidle : x.block.busy = false) {v : Half} (hcrc : x.block.crc = some v)
    (hx : s.targets[k]? = some x) (hu : step s = .next u) (hdue : s.due = none)
    (hm : s.mover = some (h, n)) {op : HostOp} {rest : List HostOp} (hscript : h.script = op :: rest)
    (hk : op.target = k) : ∃ h', u.hosts[n]? = some h' ∧ h'.script.length < h.script.length := by
  have hlt := (List.getElem?_eq_some_iff.mp (mover_some hm).1).1
  obtain ⟨script, res⟩ := h
  subst hscript
  have hmove (hr : Runs s.cfg k (fun g _ => g.script.length ≤ rest.length) ⟨op :: rest, res⟩ x.block) :
      ∃ h', u.hosts[n]? = some h' ∧ h'.script.length < (op :: rest).length := by
    obtain ⟨u', h', x', hu', -, hhosts, -, -, hshort | ⟨-, hbusy, -⟩⟩ :=
      hr.move (by simp) hc hx hdue hm
    · obtain rfl : u = u' := by simpa [hu] using hu'
      exact ⟨h', by rw [hhosts, List.getElem?_set_self hlt], hshort⟩
    · simp [hidle] at hbusy
  obtain ⟨c, r, hhosts⟩ := step_of_mover hu hdue hm
  have hagent : u.hosts[n]? = some (HostAgent.respond c ⟨op :: rest, res⟩ r) := by
    rw [hhosts, List.getElem?_set_self hlt]
  cases op with
  | tx => exact ⟨_, hagent, Nat.lt_succ_self _⟩
  | refuse _ _ more => exact ⟨_, hagent, Nat.lt_succ_of_le (List.drop_suffix more rest).length_le⟩
  | poll j =>
    obtain rfl : j = k := hk
    exact hmove (.landed hs hidle (.done (Nat.le_refl _)))
  | check j l more =>
    obtain rfl : j = k := hk
    exact hmove (.check hs hidle hcrc (.done (compare_script_suffix ..).length_le))

/-- The commit of a word in flight keeps an agent on its way to `Q`, where none is in flight. -/
theorem Runs.of_commit {c : Config} {Q : HostAgent → Block → Prop} {b b' : Block} (hr : Runs c k Q h b)
    (hQ : Q h b → b.busy = false) (hbusy : b.busy = true) (hb : commit c b = .ok b') :
    Runs c k Q h b' := by
  cases hr with
  | done hd => simp [hQ hd] at hbusy
  | write _ hidle | accept _ hidle | landed _ hidle | check _ hidle => simp [hidle] at hbusy
  | inFlight hs _ hb₂ next =>
    obtain rfl : _ = b' := Except.ok.inj (hb₂.symm.trans hb)
    obtain ⟨a, d, -, -, -, rfl⟩ := commit_ok hb
    exact .landed hs rfl next

/-- A move of the agent at the end of its load leaves it there, or brings it behind what it stands at. -/
theorem LoadEnded.of_move {base : Word} {data : List Byte} {b₀ : Block} {after : HostAgent}
    (hQ : LoadEnded s.cfg base data b₀ after h x.block) (hc : s.cfg.wf = true)
    (ho : OnlyAgent n k s) (hx : s.targets[k]? = some x) (hu : step s = .next u) (hdue : s.due = none)
    (hm : s.mover = some (h, n)) :
    ∃ h', u.hosts[n]? = some h' ∧ (h'.script.length < after.script.length ∨
      ∃ x', u.targets[k]? = some x' ∧ LoadEnded s.cfg base data b₀ after h' x'.block) := by
  obtain ⟨rfl, hb⟩ := hQ
  obtain ⟨hn, hready⟩ := mover_some hm
  obtain ⟨op, rest, hscript⟩ : ∃ op rest, h.script = op :: rest :=
    List.exists_cons_of_ne_nil (by simpa [HostAgent.ready] using hready)
  by_cases hk : op.target = k
  · obtain ⟨h', hn', hshort⟩ := step_at_rest hc hb.stopped hb.busy hb.crc hx hu hdue hm hscript hk
    exact ⟨h', hn', .inl hshort⟩
  · obtain ⟨x', hx', hsame⟩ := ho.keeps_block hu hx (by simp [hdue]) fun g o r _ hg hs => by
      rw [hm] at hg
      cases hg
      rw [hscript] at hs
      cases hs
      exact hk
    obtain ⟨c, r, hhosts⟩ := step_of_mover hu hdue hm
    have hlt := (List.getElem?_eq_some_iff.mp hn).1
    exact ⟨h.respond c r, by rw [hhosts, List.getElem?_set_self hlt],
      (respond_eq_or_shorter c h r).symm.imp_right fun heq => ⟨x', hx', heq, hsame ▸ hb⟩⟩

/-- An agent on its way to the end of its load stays on its way there, or goes on behind it: the engine
commits its word, or it makes a move itself, or the step is another's. -/
theorem Runs.of_step {base : Word} {data : List Byte} {b₀ : Block} {after : HostAgent}
    (hr : Runs s.cfg k (LoadEnded s.cfg base data b₀ after) h x.block) (hc : s.cfg.wf = true)
    (ho : OnlyAgent n k s) (hn : s.hosts[n]? = some h) (hx : s.targets[k]? = some x)
    (hu : step s = .next u) :
    ∃ h', u.hosts[n]? = some h' ∧ (h'.script.length < after.script.length ∨
      ∃ x', u.targets[k]? = some x' ∧
        Runs s.cfg k (LoadEnded s.cfg base data b₀ after) h' x'.block) := by
  by_cases hdue : s.due = some k
  · obtain ⟨t, ht, hd⟩ := due_some hdue
    obtain rfl : x = t := Option.some.inj (hx.symm.trans ht)
    obtain ⟨j, hj, hmove⟩ | ⟨hnone, -⟩ := step_next hu
    · obtain rfl : k = j := Option.some.inj (hdue.symm.trans hj)
      obtain ⟨y, b, hy, hb, rfl⟩ := engineMove_next hmove
      obtain rfl : x = y := Option.some.inj (hx.symm.trans hy)
      exact ⟨h, hn, .inr ⟨⟨b, 0⟩, by simp [(List.getElem?_eq_some_iff.mp hx).1],
        hr.of_commit (fun hQ => hQ.2.busy) (x.due_iff.mp hd).1 hb⟩⟩
    · simp [hdue] at hnone
  by_cases hmine : s.due = none ∧ s.mover = some (h, n)
  · obtain ⟨hnone, hm⟩ := hmine
    by_cases hQ : LoadEnded s.cfg base data b₀ after h x.block
    · obtain ⟨h', hn', hend⟩ := hQ.of_move hc ho hx hu hnone hm
      exact ⟨h', hn', hend.imp_right fun ⟨x', hx', hQ'⟩ => ⟨x', hx', .done hQ'⟩⟩
    · obtain ⟨u', h', x', hu', -, hhosts, hx', hr', -⟩ := hr.move hQ hc hx hnone hm
      obtain rfl : u = u' := by simpa [hu] using hu'
      have hlt := (List.getElem?_eq_some_iff.mp hn).1
      exact ⟨h', by rw [hhosts, List.getElem?_set_self hlt], .inr ⟨x', hx', hr'⟩⟩
  · have hagent : u.hosts[n]? = some h :=
      (step_agent hu hn).resolve_right fun ⟨_, _, _, hnone, hm⟩ => hmine ⟨hnone, hm⟩
    obtain ⟨x', hx', hb⟩ := ho.keeps_block hu hx hdue fun g op rest hnone hm _ => by
      obtain rfl : h = g := Option.some.inj (hn.symm.trans (mover_some hm).1)
      exact absurd ⟨hnone, hm⟩ hmine
    exact ⟨h, hagent, .inr ⟨x', hx', hb ▸ hr⟩⟩

end

section
variable {s u : State} {h : HostAgent} {n k : Nat} {x : Target} {c : Config} {base : Word}
  {data : List Byte} {b₀ : Block} {after : HostAgent}

theorem runSteps_succ_of_step (m : Nat) (h : step s = .next u) : runSteps (m + 1) s = runSteps m u := by
  simp only [runSteps, Host.Core.run]
  rw [show Sys2Proof.core.step s = step s from rfl, h]

/-- A run goes on from the state its first step leads to. -/
theorem runSteps_succ {m : Nat} (h : runSteps (m + 1) s = .next u) :
    ∃ v, step s = .next v ∧ runSteps m v = .next u := by
  cases hs : step s with
  | next v => exact ⟨v, rfl, runSteps_succ_of_step m hs ▸ h⟩
  | fault r | refused r =>
    simp only [runSteps, Host.Core.run] at h
    rw [show Sys2Proof.core.step s = step s from rfl, hs] at h
    cases h

/-- What every step keeps holds at the end of a run. -/
theorem runSteps_keeps {I : State → Prop} (hstep : ∀ s u, I s → step s = .next u → I u) {m : Nat} :
    ∀ {s u : State}, I s → runSteps m s = .next u → I u := by
  induction m with
  | zero =>
    intro s u hs hu
    cases hu
    exact hs
  | succ m ih =>
    intro s u hs hu
    obtain ⟨v, hv, hu⟩ := runSteps_succ hu
    exact ih (hstep s v hs hv) hu

/-- A step leaves an agent as it is, or brings it behind its operation. -/
theorem step_agent_eq_or_shorter (hu : step s = .next u) (hn : s.hosts[n]? = some h) :
    ∃ h', u.hosts[n]? = some h' ∧ (h' = h ∨ h'.script.length < h.script.length) := by
  obtain heq | ⟨c, r, hr, -⟩ := step_agent hu hn
  · exact ⟨h, heq, .inl rfl⟩
  · exact ⟨_, hr, respond_eq_or_shorter c h r⟩

/-- What holds in every state of a run: agent `n` is on its way to the end of its load, or is behind what
follows it. -/
structure Loading (c : Config) (n k : Nat) (base : Word) (data : List Byte) (b₀ : Block)
    (after : HostAgent) (s : State) : Prop where
  cfg : s.cfg = c
  wf : c.wf = true
  only : OnlyAgent n k s
  agent : ∃ h, s.hosts[n]? = some h ∧ (h.script.length < after.script.length ∨
    ∃ x, s.targets[k]? = some x ∧ Runs c k (LoadEnded c base data b₀ after) h x.block)

theorem Loading.of_step (hl : Loading c n k base data b₀ after s) (hu : step s = .next u) :
    Loading c n k base data b₀ after u := by
  obtain ⟨rfl, hc, ho, h, hn, hagent⟩ := hl
  refine ⟨(step_targets hu).1, hc, ho.of_step hu, ?_⟩
  obtain hshort | ⟨x, hx, hr⟩ := hagent
  · obtain ⟨h', hn', heq | hlt⟩ := step_agent_eq_or_shorter hu hn
    · exact ⟨h', hn', .inl (heq ▸ hshort)⟩
    · exact ⟨h', hn', .inl (hlt.trans hshort)⟩
  · exact hr.of_step hc ho hn hx hu

/-- Short of the end of its load an agent has more to issue than follows the load. -/
theorem Runs.loadEnded_or_longer {b : Block}
    (hr : Runs c k (LoadEnded c base data b₀ after) h b) :
    LoadEnded c base data b₀ after h b ∨ after.script.length < h.script.length := by
  have hle {g : HostAgent} {b : Block} {rest : List HostOp} (hg : g.script <:+ rest)
      (ih : LoadEnded c base data b₀ after g b ∨ after.script.length < g.script.length) :
      after.script.length < rest.length + 1 := by
    have := hg.length_le
    obtain ⟨rfl, -⟩ | hlt := ih <;> omega
  induction hr with
  | done hQ => exact .inl hQ
  | write _ _ _ _ _ ih | accept _ _ _ _ _ _ ih | inFlight _ _ _ _ ih | landed _ _ _ ih =>
    exact .inr (hle (List.suffix_refl _) ih)
  | check _ _ _ _ ih => exact .inr (hle (compare_script_suffix ..) ih)

/-- An agent that stands at what follows its load has compared equal, and the words are stored. -/
theorem Loading.ended (hl : Loading c n k base data b₀ after s) (hn : s.hosts[n]? = some h)
    (hscript : h.script = after.script) :
    h = after ∧ ∃ x, s.targets[k]? = some x ∧ SegmentStored c base data b₀ x.block := by
  obtain ⟨g, hg, hagent⟩ := hl.agent
  obtain rfl : h = g := Option.some.inj (hn.symm.trans hg)
  obtain hshort | ⟨x, hx, hr⟩ := hagent
  · simp [hscript] at hshort
  · obtain ⟨heq, hb⟩ | hlong := hr.loadEnded_or_longer
    · exact ⟨heq, x, hx, hb⟩
    · simp [hscript] at hlong

end

/-! ### How much is in flight (R41, log 4) -/

/-- The steps after which the engine of a target has committed, and one more for the commit. -/
def Target.pending (t : Target) : Nat := if t.block.busy then t.wait + 1 else 0

def State.pending (s : State) : Nat := (s.targets.map Target.pending).sum

theorem Target.pending_tick_le (t : Target) : t.tick.pending ≤ t.pending := by
  cases hb : t.block.busy with
  | false => simp [Target.pending, hb]
  | true => simp [Target.pending, hb]

theorem Target.pending_tick_lt {t : Target} (hb : t.block.busy = true) (hw : 0 < t.wait) :
    t.tick.pending < t.pending := by
  simp only [Target.pending, Target.tick_block, Target.tick_wait, hb, if_true]
  omega

theorem State.pending_tick_le (s : State) : s.tick.pending ≤ s.pending := by
  simp only [State.pending, State.tick_targets, List.map_map]
  exact List.sum_le_sum fun t _ => t.pending_tick_le

/-- A step that passes for a word in flight brings it nearer. -/
theorem State.pending_tick_lt {s : State} {k : Nat} {x : Target} (hx : s.targets[k]? = some x)
    (hb : x.block.busy = true) (hw : 0 < x.wait) : s.tick.pending < s.pending := by
  simp only [State.pending, State.tick_targets, List.map_map]
  exact List.sum_lt_sum _ _ (fun t _ => t.pending_tick_le)
    ⟨x, List.mem_of_getElem? hx, Target.pending_tick_lt hb hw⟩

theorem sum_pending_set_lt {l : List Target} {k : Nat} {x y : Target} (hx : l[k]? = some x)
    (hlt : y.pending < x.pending) :
    ((l.set k y).map Target.pending).sum < (l.map Target.pending).sum := by
  induction l generalizing k with
  | nil => simp at hx
  | cons t l ih =>
    cases k with
    | zero =>
      obtain rfl : t = x := by simpa using hx
      simpa using hlt
    | succ k => simpa using ih (by simpa using hx)

/-- A commit leaves less in flight. -/
theorem State.pending_commit_lt {s : State} {k : Nat} {x : Target} {b : Block}
    (hx : s.targets[k]? = some x) (hbusy : x.block.busy = true) (hb : b.busy = false) :
    State.pending { s with targets := (s.targets.map Target.tick).set k ⟨b, 0⟩ } < s.pending := by
  refine Nat.lt_of_lt_of_le (sum_pending_set_lt (x := x.tick) (by simp [hx]) ?_) s.pending_tick_le
  simp [Target.pending, hb, hbusy]

/-! ### A load comes to its end (R41, R125) -/

/-- Every target but `k` that was at rest keeps its record. -/
def OthersKept (k : Nat) (s u : State) : Prop :=
  ∀ j y, j ≠ k → s.targets[j]? = some y → y.block.busy = false →
    ∃ y', u.targets[j]? = some y' ∧ y'.block = y.block

theorem OthersKept.refl (k : Nat) (s : State) : OthersKept k s s := fun _ y _ hy _ => ⟨y, hy, rfl⟩

theorem OthersKept.trans {k : Nat} {s u v : State} (hsu : OthersKept k s u) (huv : OthersKept k u v) :
    OthersKept k s v := by
  intro j y hj hy hidle
  obtain ⟨z, hz, hzy⟩ := hsu j y hj hy hidle
  obtain ⟨w, hw, hwz⟩ := huv j z hj hz (hzy ▸ hidle)
  exact ⟨w, hw, hwz.trans hzy⟩

/-- Agent `n` of `s` is `h`, on its way to `Q` from the record of target `k`, in the invariant of R27. -/
structure Underway (n k : Nat) (Q : HostAgent → Block → Prop) (s : State) (h : HostAgent) : Prop where
  inv : s.Inv
  wf : s.cfg.wf = true
  agent : s.hosts[n]? = some h
  target : ∃ x, s.targets[k]? = some x ∧ Runs s.cfg k Q h x.block

section
variable {s u : State} {h : HostAgent} {n k : Nat} {x : Target} {Q : HostAgent → Block → Prop}

/-- Short of `Q` the target is not stopped, and the agent has a request to it. -/
theorem Runs.done_or_running {c : Config} {b : Block} (hr : Runs c k Q h b) :
    Q h b ∨ b.stopped = false ∧ ∃ w, h.request c = some (k, w) := by
  cases hr with
  | done hQ => exact .inl hQ
  | write hs | accept hs | inFlight hs | landed hs | check hs => exact .inr ⟨hs, _, rfl⟩

/-- With no engine due, a word in flight has still to wait. -/
theorem wait_pos_of_due_none (hdue : s.due = none) (hx : s.targets[k]? = some x)
    (hs : x.block.stopped = false) (hbusy : x.block.busy = true) : 0 < x.wait := by
  by_contra hzero
  obtain ⟨hf, hr⟩ := (Block.stopped_eq_false_iff _).mp hs
  have hxdue := x.due_iff.mpr ⟨hbusy, hf, hr, by omega⟩
  simp [due_none hdue x (List.mem_of_getElem? hx)] at hxdue

/-- A step in which a host could address target `k` alone keeps the others at rest. -/
theorem OthersKept.of_step (hu : step s = .next u)
    (hm : ∀ g m op rest, s.due = none → s.mover = some (g, m) → g.script = op :: rest →
      op.target = k) : OthersKept k s u := by
  intro j y hj hy hrest
  refine targetsAreIndependent s u j y hu hy (fun hdue => ?_) fun g m op rest hnone hg hscript => ?_
  · obtain ⟨t, ht, hd⟩ := due_some hdue
    obtain rfl : y = t := Option.some.inj (hy.symm.trans ht)
    simp [(y.due_iff.mp hd).1] at hrest
  · exact (hm g m op rest hnone hg hscript).trans_ne hj.symm

/-- A due engine's commit leaves an agent underway, with less in flight. -/
theorem Underway.of_due {j : Nat} (hs : Underway n k Q s h) (hidle : ∀ h b, Q h b → b.busy = false)
    (hdue : s.due = some j) :
    ∃ u, step s = .next u ∧ Underway n k Q u h ∧ u.hosts = s.hosts ∧ u.pending < s.pending := by
  obtain ⟨hinv, hc, hn, x, hx, hr⟩ := hs
  obtain ⟨t, ht, hd⟩ := due_some hdue
  obtain ⟨b, hb, hu⟩ := engineStep.2.2 s j t hinv hdue ht
  have hbusy := (t.due_iff.mp hd).1
  obtain ⟨a, d, -, -, -, rfl⟩ := commit_ok hb
  refine ⟨_, hu, ⟨stepKeepsInvariant _ _ hinv hu, hc, hn, ?_⟩, rfl, State.pending_commit_lt ht hbusy rfl⟩
  by_cases hjk : j = k
  · subst hjk
    obtain rfl : x = t := Option.some.inj (hx.symm.trans ht)
    exact ⟨_, List.getElem?_set_self (by simpa using (List.getElem?_eq_some_iff.mp hx).1),
      hr.of_commit (hidle _ _) hbusy hb⟩
  · exact ⟨x.tick, by simp [List.getElem?_set_ne hjk, hx], hr⟩

/-- A step of an agent underway whose turn it is, or of an engine before it, brings the agent nearer:
less of its script is left, or less is in flight. -/
theorem Underway.progress (hs : Underway n k Q s h) (hx : s.targets[k]? = some x) (hQ : ¬ Q h x.block)
    (hidle : ∀ h b, Q h b → b.busy = false) (hm : s.due = none → s.mover = some (h, n)) :
    ∃ u h', step s = .next u ∧ Underway n k Q u h' ∧ u.hosts = s.hosts.set n h' ∧ OthersKept k s u ∧
      toLex (h'.script.length, u.pending) < toLex (h.script.length, s.pending) := by
  obtain ⟨hinv, hc, hn, y, hy, hr⟩ := id hs
  obtain rfl : x = y := Option.some.inj (hx.symm.trans hy)
  obtain ⟨hstopped, w, hq⟩ := hr.done_or_running.resolve_left hQ
  obtain ⟨op, rest, hscript, hk⟩ := request_target hq
  have hkept {u : State} (hu : step s = .next u) : OthersKept k s u :=
    .of_step hu fun g m op' rest' hnone hg hscript' => by
      rw [hm hnone] at hg
      cases hg
      rw [hscript] at hscript'
      cases hscript'
      exact hk
  obtain ⟨hlt, hself⟩ := List.getElem?_eq_some_iff.mp hn
  cases hdue : s.due with
  | some j =>
    obtain ⟨u, hu, hus, hhosts, hless⟩ := hs.of_due hidle hdue
    exact ⟨u, h, hu, hus, by simp [hhosts, ← hself], hkept hu,
      Prod.Lex.toLex_lt_toLex.mpr (.inr ⟨rfl, hless⟩)⟩
  | none =>
    obtain ⟨u, h', x', hu, hcfg, hhosts, hx', hr', hless⟩ := hr.move hQ hc hx hdue (hm hdue)
    have hn' : u.hosts[n]? = some h' := by rw [hhosts, List.getElem?_set_self hlt]
    refine ⟨u, h', hu, ⟨stepKeepsInvariant s u hinv hu, hcfg ▸ hc, hn', x', hx', hcfg ▸ hr'⟩, hhosts,
      hkept hu, Prod.Lex.toLex_lt_toLex.mpr ?_⟩
    obtain hshort | ⟨rfl, hbusy, htargets⟩ := hless
    · exact .inl hshort
    · have hpending : u.pending = s.tick.pending :=
        congrArg (fun l => (l.map Target.pending).sum) htargets
      exact .inr ⟨rfl, hpending ▸
        State.pending_tick_lt hx hbusy (wait_pos_of_due_none hdue hx hstopped hbusy)⟩

end

/-! ### The turns still to come play no part in a step (log 12) -/

/-- The run with these turns to come. -/
def State.withTurns (s : State) (ts : List Nat) : State := { s with turns := ts }

section
variable (s : State) (ts : List Nat)

theorem withTurns_drawReply (f : Half → Half) :
    (s.withTurns ts).drawReply f = (s.drawReply f).withTurns ts := by
  obtain ⟨cfg, targets, sel, hosts, reply, draws, reads, waits, turns⟩ := s
  cases reads <;> rfl

theorem withTurns_acceptWord (t : Target) :
    (s.withTurns ts).acceptWord t = (s.acceptWord t).withTurns ts := by
  obtain ⟨cfg, targets, sel, hosts, reply, draws, reads, waits, turns⟩ := s
  cases waits <;> rfl

variable {s ts}

theorem prologue_withTurns {m : Mnemonic} {rule rule' : Target → Host.Outcome State Fault Refusal}
    (h : ∀ t, rule' t = mapNext (·.withTurns ts) (rule t)) :
    prologue (s.withTurns ts) m rule' = mapNext (·.withTurns ts) (prologue s m rule) := by
  unfold prologue
  rw [show (s.withTurns ts).target? = s.target? from rfl]
  split
  · rfl
  · split
    · rfl
    · split
      · rfl
      · exact h _

theorem exec_withTurns (i : Instr) :
    exec i (s.withTurns ts) = mapNext (·.withTurns ts) (exec i s) := by
  cases i with
  | rdCtrl | rdAddrh | rdAddrl | rdDatah | rdDatal =>
    exact prologue_withTurns fun _ => congrArg _ (withTurns_drawReply s ts _)
  | rdCrc => exact prologue_withTurns fun t => by split <;> rfl
  | mbCrcrst | wrAddrh | wrDatah | wrDatal => exact prologue_withTurns fun _ => rfl
  | mbXwr =>
    refine prologue_withTurns fun t => ?_
    split
    · rfl
    · split
      · rfl
      · rw [show (s.withTurns ts).cfg = s.cfg from rfl, withTurns_acceptWord]
        split <;> rfl
  | wrAddrl v =>
    simp only [exec, execWrAddrl]
    split
    · exact prologue_withTurns fun _ => rfl
    · rw [show (s.withTurns ts).target? = s.target? from rfl]
      split
      · rfl
      · split <;> rfl

theorem issue_withTurns (k : Nat) (w : TxWord) :
    issue k w (s.withTurns ts) = mapNext (·.withTurns ts) (issue k w s) := by
  unfold issue
  rw [show ((s.withTurns ts).select k).target? = (s.select k).target? from rfl]
  split
  · rfl
  · split
    · rfl
    · rw [show (s.withTurns ts).cfg = s.cfg from rfl]
      split
      · exact exec_withTurns (s := s.select k) _
      · rfl

theorem step_withTurns_of_due {u : State} {k : Nat} (hdue : s.due = some k)
    (hu : step s = .next u) : step (s.withTurns ts) = .next (u.withTurns ts) := by
  simp only [step, hdue, show (s.withTurns ts).due = s.due from rfl] at hu ⊢
  obtain ⟨t, b, ht, hb, rfl⟩ := engineMove_next hu
  simp only [engineMove, show (s.withTurns ts).targets = s.targets from rfl,
    show (s.withTurns ts).cfg = s.cfg from rfl, ht, hb]
  rfl

/-- The mover having been picked by the next turn, its move is the same whatever turns follow. -/
theorem step_withTurns_of_request {u : State} {h : HostAgent} {n k turn : Nat} {w : TxWord}
    (hdue : s.due = none) (hm : (s.withTurns (turn :: ts)).mover = some (h, n))
    (hq : h.request s.cfg = some (k, w)) (hu : step (s.withTurns (turn :: ts)) = .next u)
    (ts' : List Nat) : step (s.withTurns (turn :: ts')) = .next (u.withTurns ts') := by
  have hstep (l : List Nat) : step (s.withTurns (turn :: l)) =
      mapNext (State.hostLearns h n) (mapNext (·.withTurns l) (issue k w s.tick)) := by
    rw [← issue_withTurns]
    simp only [step, show (s.withTurns (turn :: l)).due = s.due from rfl, hdue]
    exact hostMove_request (s := (s.withTurns (turn :: l)).tick) hm hq
  rw [hstep] at hu ⊢
  obtain ⟨v, hv, rfl⟩ := mapNext_next hu
  obtain ⟨y, hy, rfl⟩ := mapNext_next hv
  rw [hy]
  rfl

end

/-! ### A load's runs (R41, R125, R152) -/

section
variable {s u : State} {h : HostAgent} {n k : Nat} {x : Target} {Q : HostAgent → Block → Prop}

/-- With no other agent to move, an agent comes to the end of its load. -/
theorem Underway.exists_run (hidle : ∀ h b, Q h b → b.busy = false) (hs : Underway n k Q s h)
    (halone : ∀ j g, j ≠ n → s.hosts[j]? = some g → g.script = []) :
    ∃ m u h', runSteps m s = .next u ∧ u.hosts = s.hosts.set n h' ∧ OthersKept k s u ∧
      ∃ x, u.targets[k]? = some x ∧ Q h' x.block := by
  induction hμ : toLex (h.script.length, s.pending) using WellFoundedLT.induction generalizing s h with
  | ind μ ih =>
    obtain ⟨x, hx, hr⟩ := hs.target
    by_cases hQ : Q h x.block
    · obtain ⟨hlt, rfl⟩ := List.getElem?_eq_some_iff.mp hs.agent
      exact ⟨0, s, _, rfl, by simp, .refl k s, x, hx, hQ⟩
    · obtain ⟨-, w, hq⟩ := hr.done_or_running.resolve_left hQ
      obtain ⟨op, rest, hscript, -⟩ := request_target hq
      have hm : s.mover = some (h, n) := mover_of_alone hs.agent (by simp [HostAgent.ready, hscript])
        fun j g hj hg => by simp [HostAgent.ready, halone j g hj hg]
      obtain ⟨v, g, hv, hvs, hhosts, hkept, hlt⟩ := hs.progress hx hQ hidle fun _ => hm
      obtain ⟨m, u, h', hu, hhosts', hkept', hend⟩ := ih _ (hμ ▸ hlt) hvs (fun j f hj hf => by
        rw [hhosts, List.getElem?_set_ne hj.symm] at hf
        exact halone j f hj hf) rfl
      exact ⟨m + 1, u, h', (runSteps_succ_of_step m hv).trans hu, by rw [hhosts', hhosts, List.set_set],
        hkept.trans hkept', hend⟩

/-- Under some turns, an agent comes to the end of its load beside any others. -/
theorem Underway.exists_turns (hidle : ∀ h b, Q h b → b.busy = false) (hs : Underway n k Q s h) :
    ∃ turns m u h', runSteps m (s.withTurns turns) = .next u ∧ u.hosts[n]? = some h' ∧
      ∃ x, u.targets[k]? = some x ∧ Q h' x.block := by
  induction hμ : toLex (h.script.length, s.pending) using WellFoundedLT.induction generalizing s h with
  | ind μ ih =>
    obtain ⟨x, hx, hr⟩ := hs.target
    by_cases hQ : Q h x.block
    · exact ⟨[], 0, s.withTurns [], h, rfl, hs.agent, x, hx, hQ⟩
    obtain ⟨-, w, hq⟩ := hr.done_or_running.resolve_left hQ
    cases hdue : s.due with
    | some j =>
      obtain ⟨v, g, hv, hvs, -, -, hlt⟩ := hs.progress hx hQ hidle fun hnone => by simp [hdue] at hnone
      obtain ⟨ts, m, u, h', hu, hend⟩ := ih _ (hμ ▸ hlt) hvs rfl
      exact ⟨ts, m + 1, u, h',
        (runSteps_succ_of_step m (step_withTurns_of_due hdue hv)).trans hu, hend⟩
    | none =>
      obtain ⟨op, rest, hscript, -⟩ := request_target hq
      obtain ⟨turn, hm⟩ := hostAgentsInterleave.2 s n h hs.agent (by simp [hscript])
      have hs' : Underway n k Q (s.withTurns (turn :: s.turns)) h :=
        ⟨⟨hs.inv.count, hs.inv.addressed, hs.inv.blocks⟩, hs.wf, hs.agent, hs.target⟩
      obtain ⟨v, g, hv, hvs, -, -, hlt⟩ := hs'.progress hx hQ hidle fun _ => hm
      obtain ⟨ts, m, u, h', hu, hend⟩ := ih _ (hμ ▸ hlt) hvs rfl
      exact ⟨turn :: ts, m + 1, u, h',
        (runSteps_succ_of_step m (step_withTurns_of_request hdue hm hq hv ts)).trans hu, hend⟩

end

/-- Settles O56: a load at an aligned base is on its way to its end from the first record on; every step
keeps it so, and every move of its agent brings it nearer. -/
theorem loadSegIsCorrect : Obligations.LoadSegIsCorrect := by
  intro s k n more x base data rest res hinv hc hx hf hr hb hn hothers hbase hroom hvalid
  have hruns : Runs s.cfg k
      (LoadEnded s.cfg base data x.block ⟨rest, if more = 0 then some .ok else res⟩)
      ⟨loadSegWithin s.cfg k base data more ++ rest, res⟩ x.block :=
    .loadSegWithin more (Block.not_stopped hf hr) hb (wordAligned_of_lowBits hbase) hroom hvalid
      fun _ hb' => ⟨rfl, hb'⟩
  have hunderway := Underway.mk hinv hc hn ⟨x, hx, hruns⟩
  refine ⟨fun m u h hu hh hscript => ?_, ?_, fun halone => ?_⟩
  · have hl : Loading s.cfg n k base data x.block ⟨rest, if more = 0 then some .ok else res⟩ s :=
      ⟨rfl, hc, hothers, _, hn, .inr ⟨x, hx, hruns⟩⟩
    obtain ⟨rfl, hstored⟩ := (runSteps_keeps (fun _ _ => Loading.of_step) hl hu).ended hh hscript
    exact ⟨rfl, hstored⟩
  · obtain ⟨turns, m, u, h', hu, hh, y, -, rfl, -⟩ :=
      hunderway.exists_turns fun _ _ hQ => hQ.2.busy
    exact ⟨turns, m, u, hu, hh⟩
  · obtain ⟨m, u, h', hu, hhosts, hkept, y, -, rfl, -⟩ :=
      hunderway.exists_run (fun _ _ hQ => hQ.2.busy) halone
    exact ⟨m, u, hu, hhosts, hkept⟩

end Sys2Proof.Machine
end

section
/-! PROOFS. The exceptions (60_exceptions.md): a transaction raises a fault by one of the five lines of
R141 only. -/

namespace Sys2Proof.Machine

/-! ### The lines of the list of faults (R141) -/

/-- The instruction `i` on the record `b` raises this fault by one of the lines of R141. -/
inductive FaultLine (i : Instr) (c : Config) (b : Block) : FaultMark → Prop where
  | busyAccess (hi : i ≠ .rdCtrl) (hb : b.busy = true) : FaultLine i c b (.busyAccess (mnemonicOf i))
  | addrUnwritten (hi : i = .mbXwr) (ha : b.pointer? = none) : FaultLine i c b (.unwrittenOperand .addr)
  | dataUnwritten (hi : i = .mbXwr) (hd : b.dataWord? = none) :
      FaultLine i c b (.unwrittenOperand .data)
  | addressInvalid (a : Word) (hi : i = .mbXwr) (ha : b.pointer? = some a)
      (hv : tmemValid c a = false) : FaultLine i c b (.targetAddressInvalid a)
  | crcUnwritten (hi : i = .rdCrc) (hc : b.crc = none) : FaultLine i c b (.unwrittenRead .crc)

/-- The addressed target `t` keeps its fault mark from `s` to `u`, or faults by a line of R141. -/
def FaultsByLine (i : Instr) (s u : State) (t : Target) : Prop :=
  (∃ t', u.target? = some t' ∧ t'.block.fault = t.block.fault) ∨
  ∃ f, u = s.takeFault t f ∧ FaultLine i s.cfg t.block f

theorem takeFault_target? {s : State} {t : Target} (f : FaultMark) (ht : s.target? = some t) :
    (s.takeFault t f).target? = some ⟨{ t.block with fault := some f }, t.wait⟩ :=
  target?_of_set ht rfl rfl

/-- A mark on a target that had none is the one the line records (R143). -/
theorem FaultsByLine.line {i : Instr} {s u : State} {t t' : Target} {f : FaultMark}
    (h : FaultsByLine i s u t) (ht : s.target? = some t) (ht' : u.target? = some t')
    (hf : t.block.fault = none) (hf' : t'.block.fault = some f) : FaultLine i s.cfg t.block f := by
  obtain ⟨x, hx, hkept⟩ | ⟨g, rfl, hline⟩ := h
  · obtain rfl : x = t' := Option.some.inj (hx.symm.trans ht')
    exact absurd (hf'.symm.trans (hkept.trans hf)) nofun
  · obtain rfl : _ = t' := Option.some.inj ((takeFault_target? g ht).symm.trans ht')
    obtain rfl : g = f := Option.some.inj hf'
    exact hline

/-! ### Each instruction's faults (R90 to R103) -/

section
variable {i : Instr} {s u : State} {t : Target} (ht : s.target? = some t)
include ht

theorem noReply_faultsByLine : FaultsByLine i s s.noReply t := .inl ⟨t, ht, rfl⟩

theorem complete_faultsByLine {b : Block} (r : Option Half) (hb : b.fault = t.block.fault) :
    FaultsByLine i s (s.complete t b r) t :=
  .inl ⟨_, target?_of_set ht rfl rfl, hb⟩

/-- The prologue itself raises `BusyAccess` alone (R90 step 3). -/
theorem prologue_faultsByLine {rule : Target → Host.Outcome State Fault Refusal}
    (h : prologue s (mnemonicOf i) rule = .next u)
    (hrule : rule t = .next u → FaultsByLine i s u t) : FaultsByLine i s u t := by
  obtain ⟨x, hx, hcases⟩ := prologue_next h
  obtain rfl : x = t := Option.some.inj (hx.symm.trans ht)
  obtain ⟨-, rfl⟩ | ⟨-, hb, hne, rfl⟩ | ⟨-, -, hr⟩ := hcases
  · exact noReply_faultsByLine ht
  · exact .inr ⟨_, rfl, .busyAccess (fun hi => hne (congrArg mnemonicOf hi)) hb⟩
  · exact hrule hr

/-- A read that returns a draw adds no fault to the prologue's (R98, R100 to R103). -/
theorem prologue_drawReply_faultsByLine {f : Target → Half → Half}
    (h : prologue s (mnemonicOf i) (fun t => .next (s.drawReply (f t))) = .next u) :
    FaultsByLine i s u t :=
  prologue_faultsByLine ht h fun hr => by
    obtain rfl : s.drawReply (f t) = u := by simpa using hr
    exact .inl ⟨t, by simpa [State.target?] using ht, rfl⟩

/-- A register write adds no fault to the prologue's (R91 to R94, R96). -/
theorem prologue_set_faultsByLine {r : Reg} {v : Option Half}
    (h : prologue s (mnemonicOf i) (fun t => .next (s.complete t (t.block.set r v) none)) = .next u) :
    FaultsByLine i s u t :=
  prologue_faultsByLine ht h fun hr => by
    obtain rfl : s.complete t _ none = u := by simpa using hr
    exact complete_faultsByLine ht none (Block.set_fault ..)

/-- `RD.CRC` faults on an unwritten accumulator (R99). -/
theorem execRdCrc_faultsByLine (h : exec .rdCrc s = .next u) : FaultsByLine .rdCrc s u t :=
  prologue_faultsByLine ht h fun hr => by
    split at hr
    · next hc =>
      obtain rfl : s.takeFault t _ = u := by simpa using hr
      exact .inr ⟨_, rfl, .crcUnwritten rfl hc⟩
    · obtain rfl : s.complete t t.block _ = u := by simpa using hr
      exact complete_faultsByLine ht _ rfl

/-- `MB.XWR` faults by the first of its three checks that fails (R97). -/
theorem execMbXwr_faultsByLine (h : exec .mbXwr s = .next u) : FaultsByLine .mbXwr s u t :=
  prologue_faultsByLine ht h fun hr => by
    split at hr
    · next ha =>
      obtain rfl : s.takeFault t _ = u := by simpa using hr
      exact .inr ⟨_, rfl, .addrUnwritten rfl ha⟩
    · next a ha =>
      split at hr
      · next hd =>
        obtain rfl : s.takeFault t _ = u := by simpa using hr
        exact .inr ⟨_, rfl, .dataUnwritten rfl hd⟩
      · split at hr
        · obtain rfl : s.acceptWord t = u := by simpa using hr
          exact .inl ⟨_, target?_of_set ht (s.acceptWord_sel t) (s.acceptWord_targets t), rfl⟩
        · next hv =>
          obtain rfl : s.takeFault t _ = u := by simpa using hr
          exact .inr ⟨_, rfl, .addressInvalid a rfl ha (by simpa using hv)⟩

/-- `WR.ADDRL` with a misaligned operand is refused, and raises no fault (R59, log 16). -/
theorem execWrAddrl_faultsByLine {v : Half} (h : exec (.wrAddrl v) s = .next u) :
    FaultsByLine (.wrAddrl v) s u t := by
  simp only [exec, execWrAddrl, ht] at h
  split at h
  · exact prologue_set_faultsByLine ht h
  · split at h
    · obtain rfl : s.noReply = u := by simpa using h
      exact noReply_faultsByLine ht
    · obtain rfl : s.takeRefusal t _ = u := by simpa using h
      exact complete_faultsByLine ht none rfl

/-- Every instruction raises a fault by a line of R141 or none. -/
theorem exec_faultsByLine (h : exec i s = .next u) : FaultsByLine i s u t := by
  cases i with
  | rdCtrl | rdAddrh | rdAddrl | rdDatah | rdDatal => exact prologue_drawReply_faultsByLine ht h
  | rdCrc => exact execRdCrc_faultsByLine ht h
  | mbXwr => exact execMbXwr_faultsByLine ht h
  | wrAddrl v => exact execWrAddrl_faultsByLine ht h
  | mbCrcrst | wrAddrh | wrDatah | wrDatal => exact prologue_set_faultsByLine ht h

end

/-- A word that cannot be put together has an unwritten half. -/
theorem half_eq_none_of_joinHalves {hi lo : Option Half} (h : joinHalves hi lo = none) :
    hi = none ∨ lo = none := by
  cases hi with
  | none => exact .inl rfl
  | some _ =>
    cases lo with
    | none => exact .inr rfl
    | some _ => cases h

/-- Settles O27: every instruction faults by a line of R141, and a commit keeps the mark. -/
theorem faultsAreTheListedOnes : Obligations.FaultsAreTheListedOnes := by
  refine ⟨fun i s u t t' f h ht ht' hf hf' => ?_, fun c b b' h => ?_⟩
  · cases (exec_faultsByLine ht h).line ht ht' hf hf' with
    | busyAccess hi hb => exact .inl ⟨rfl, hi, hb⟩
    | addrUnwritten hi ha => exact .inr (.inl ⟨rfl, hi, half_eq_none_of_joinHalves ha⟩)
    | dataUnwritten hi hd => exact .inr (.inr (.inl ⟨rfl, hi, half_eq_none_of_joinHalves hd⟩))
    | addressInvalid a hi ha hv =>
      obtain ⟨ah, al, hah, hal, rfl⟩ := joinHalves_eq_some ha
      exact .inr (.inr (.inr (.inl ⟨ah, al, rfl, hi, hah, hal, hv⟩)))
    | crcUnwritten hi hc => exact .inr (.inr (.inr (.inr ⟨rfl, hi, hc⟩)))
  · obtain ⟨a, d, -, -, -, rfl⟩ := commit_ok h
    exact b.committed_fault a d

end Sys2Proof.Machine
end

section
/-! PROOFS. Reset and hazards (70_reset_and_hazards.md): the parameters of a run (R161), and what is legal
directly after reset (R163). -/

namespace Sys2Proof.Machine

/-- Settles O37: a step's engine or host replaces targets in place, and touches no parameter. -/
theorem parametersAreFixed : Obligations.ParametersAreFixed := by
  intro s u h
  obtain ⟨hcfg, hu | ⟨k, x, x', -, hu, -⟩⟩ := step_targets h
  · exact ⟨hcfg, by rw [hu, List.length_map]⟩
  · exact ⟨hcfg, by rw [hu, List.length_set, List.length_map]⟩

/-! ### Transactions that leave no mark -/

@[simp] theorem Block.set_stopped (b : Block) (r : Reg) (v : Option Half) :
    (b.set r v).stopped = b.stopped := by
  simp [Block.stopped]

theorem unmarked_iff (s : State) : s.unmarked = true ↔ ∀ t ∈ s.targets, t.block.stopped = false := by
  simp [State.unmarked]

theorem drawReply_unmarked (s : State) (f : Half → Half) : (s.drawReply f).unmarked = s.unmarked := by
  simp [State.unmarked]

/-- A transaction that completes with an unmarked record leaves no mark. -/
theorem complete_unmarked {s : State} {b : Block} (hu : s.unmarked = true) (t : Target)
    (r : Option Half) (hb : b.stopped = false) : (s.complete t b r).unmarked = true := by
  rw [unmarked_iff] at hu ⊢
  intro x hx
  obtain hx | rfl := List.mem_or_eq_of_mem_set (s.complete_targets t b r ▸ hx)
  · exact hu x hx
  · exact hb

/-- With no mark and no word in flight, only `MB.XWR` and `RD.CRC` can leave a mark: every other
well-formed instruction returns a draw or writes a register. -/
theorem exec_unmarked {i : Instr} {s : State} {t : Target} (ht : s.target? = some t)
    (hu : s.unmarked = true) (hb : t.block.busy = false) (hwf : i.wf = true) (hxwr : i ≠ .mbXwr)
    (hcrc : i ≠ .rdCrc) : ∃ u, exec i s = .next u ∧ u.unmarked = true := by
  have hs : t.block.stopped = false := (unmarked_iff s).mp hu t (List.mem_of_getElem? ht)
  have hset (r : Reg) (v : Option Half) : (s.complete t (t.block.set r v) none).unmarked = true :=
    complete_unmarked hu t none ((t.block.set_stopped r v).trans hs)
  have hdraw (f : Half → Half) : (s.drawReply f).unmarked = true := (drawReply_unmarked s f).trans hu
  cases i with
  | mbXwr => exact absurd rfl hxwr
  | rdCrc => exact absurd rfl hcrc
  | rdCtrl => exact ⟨_, exec_rdCtrl ht hs, hdraw _⟩
  | rdAddrh | rdAddrl | rdDatah | rdDatal => exact ⟨_, readOpen_idle ht hs hb _, hdraw _⟩
  | mbCrcrst => exact ⟨_, exec_mbCrcrst_idle ht hs hb, hset _ _⟩
  | wrAddrl v =>
    exact ⟨_, (exec_wrAddrl_of_aligned s hwf).trans (writeHalf_idle ht hs hb _ _ v), hset _ _⟩
  | wrAddrh v | wrDatah v | wrDatal v => exact ⟨_, writeHalf_idle ht hs hb _ _ v, hset _ _⟩

/-! ### Directly after reset (R163) -/

theorem reset_target? : State.reset.target? = some ⟨Block.reset, 0⟩ := rfl

theorem eq_reset_of_mem_resetWith {c : Config} {t : Target} (ht : t ∈ (State.resetWith c).targets) :
    t = ⟨Block.reset, 0⟩ :=
  List.eq_of_mem_replicate (resetWith_targets c ▸ ht)

theorem resetWith_unmarked (c : Config) : (State.resetWith c).unmarked = true :=
  (unmarked_iff _).mpr fun _ ht => eq_reset_of_mem_resetWith ht ▸ rfl

/-- After reset no word is in flight, so no engine is due. -/
theorem resetWith_due (c : Config) : (State.resetWith c).due = none :=
  List.findIdx?_eq_none_iff.mpr fun _ ht => eq_reset_of_mem_resetWith ht ▸ rfl

/-- Settles O49: after reset the pointer and the accumulator are unwritten, which are the first checks of
`MB.XWR` and `RD.CRC`; no other transaction reads a stored value. -/
theorem legalAfterReset : Obligations.LegalAfterReset :=
  ⟨resetWith_due _,
    ⟨_, _, exec_mbXwr_pointer_unwritten reset_target? rfl rfl rfl, takeFault_target? _ reset_target?, rfl⟩,
    ⟨_, _, exec_rdCrc_unwritten reset_target? rfl rfl rfl, takeFault_target? _ reset_target?, rfl⟩,
    fun _ => exec_unmarked reset_target? (resetWith_unmarked _) rfl⟩

end Sys2Proof.Machine
end
